-- ==== Sys2Proof/Word.lean ====
section
/-! DEFINITION. The word types of the CRC-32 engine (00_scope.md R7, R8): 32-bit words, 8-bit bytes, all unsigned. -/

namespace Sys2Proof

/-- A 32-bit unsigned value: an accumulator, a table entry, a register, a buffer address (R7, R8). -/
abbrev Word := BitVec 32

/-- An 8-bit data element of the buffer (R7). -/
abbrev Byte := BitVec 8

/-- `M32`, the complement constant 0xFFFFFFFF of R7 and R10. -/
abbrev M32 : Word := 0xFFFFFFFF#32

end Sys2Proof
end

