-- ==== Sys2Proof/Config.lean ====
section
/-! DEFINITION. What an implementation or the platform fixes, and the free values of the model.

The two OPEN parameters of 00_scope.md R7 (`REG_BASE`, `MemAdmits`) are plain data (`Platform`), carried by a state and
written by nothing, so that a claim about every state is a claim about every platform. The free values are constants with
no body: nothing can evaluate them. -/

namespace Sys2Proof

/-- POLY, the reflected IEEE generator polynomial, hardwired (10_state.md R21, 00_scope.md R7). -/
def Config.poly : Word := 0xEDB88320#32

/-- The two access widths of the engine's read port, `n` in 1 and 4 (20_memory.md R42, R43). -/
inductive ReadWidth where
  | byte
  | word
deriving DecidableEq, Repr

/-- One read access `MemRead(addr, n)` of the engine's read port (20_memory.md R42). -/
structure ReadReq where
  addr : Word
  width : ReadWidth
deriving DecidableEq, Repr

/-- Read accesses of one width at the addresses `lo` to `hi`, both included, that buffer memory does not answer. -/
structure RefusedReads where
  lo : Word
  hi : Word
  width : ReadWidth
deriving DecidableEq, Repr

/-- The platform's parameters. `regBase` is `REG_BASE` (10_state.md R31), an address of the host's address space, whose
width the spec does not give. `refused` is the complement of `MemAdmits` (20_memory.md R48): a list of ranges names every
possible predicate on the finitely many read accesses. Log entry 2. -/
structure Platform where
  regBase : Nat
  refused : List RefusedReads
deriving DecidableEq, Repr

/-- FREE VALUE. What table entry `n` of level `level` holds after the reset numbered `draw`: unspecified
(10_state.md R35, 93_implementation_defined.md I7). Log entry 4. -/
opaque Config.tableAfterReset (draw level n : Nat) : Word

/-- FREE VALUE. Whether, in the command numbered `draw`, the read of the byte at `addr` sees the new value of the racing
store with `later` racing stores behind it (20_memory.md R50, 93_implementation_defined.md I4). Log entry 6. -/
opaque Config.raceSeesNew (draw : Nat) (addr : Word) (later : Nat) : Bool

end Sys2Proof
end

