-- ==== Sys2Proof/Syntax.lean ====
section
/-! DEFINITION. The commands of the engine: one constructor per row of spec/opcode_table.json (30_encoding.md R61).
Commands carry no operand fields and no immediates (R63): every operand is read from a register when the command runs. -/

namespace Sys2Proof

/-- The five commands of the opcode map (30_encoding.md R61). -/
inductive Instr where
  /-- Build the 8-level table (R86). -/
  | build
  /-- Byte-wise checksum of the buffer (R101). -/
  | crc
  /-- Four-byte checksum of the buffer (R122). -/
  | crcq
  /-- Read one table entry (R87). -/
  | rdtab
  /-- 32-bit bit-reversal of OPND (R141). -/
  | rev32
deriving DecidableEq, Repr

end Sys2Proof
end

