-- ==== Sys2Proof/Machine/HostLines.lean ====
section
/-! DEFINITION. The host's side of the interface as text: the register map (10_state.md R31), the host lines of
30_encoding.md R67, their pseudo-instructions (R68), and the bus accesses each line stands for. -/

namespace Sys2Proof.Machine

/-- The nine registers of the register map (10_state.md R31). The other seven slots, 0x24 to 0x3C, are reserved. -/
inductive Reg where
  | cmd | status | seed | addr | len | result | tsel | opnd | poly
deriving DecidableEq, Repr

/-- The offset of a register from REG_BASE (R31). -/
def Reg.offset : Reg → Nat
  | .cmd => 0x00
  | .status => 0x04
  | .seed => 0x08
  | .addr => 0x0C
  | .len => 0x10
  | .result => 0x14
  | .tsel => 0x18
  | .opnd => 0x1C
  | .poly => 0x20

/-- The register at an offset of the register block, none at a reserved slot (R31). -/
def Reg.ofOffset : Nat → Option Reg
  | 0x00 => some .cmd
  | 0x04 => some .status
  | 0x08 => some .seed
  | 0x0C => some .addr
  | 0x10 => some .len
  | 0x14 => some .result
  | 0x18 => some .tsel
  | 0x1C => some .opnd
  | 0x20 => some .poly
  | _ => none

/-- One event at the block's boundary, in the order in which the events happen (00_scope.md R12). The accesses are the
host's accesses to the register block; their address is one of the host's address space and their width is in bits. -/
inductive Input where
  /-- A register-block write of `v` (R32). -/
  | write (addr width : Nat) (v : Word)
  /-- A register-block write of the value read last (R68, `wr SEED, r` of `crc32c`). DESIGN CHOICE, log entry 16: the event
  names no host, so this is the value of the last read of the event list, whichever host made it. -/
  | writeLastRead (addr width : Nat)
  /-- A register-block read (R32). -/
  | read (addr width : Nat)
  /-- The platform's reset of the block (70_reset_and_hazards.md R180). -/
  | reset
  /-- A store of one byte to buffer memory, by the host or another bus agent, complete before the next event (R49). -/
  | store (a : Word) (b : Byte)
  /-- A store of one byte to buffer memory by another bus agent, which falls inside the window of the next command that
  runs (R50). -/
  | storeDuring (a : Word) (b : Byte)
deriving DecidableEq, Repr

/-- A line of a host program (30_encoding.md R67); a comment is no line here. -/
inductive Line where
  /-- `wr REG, v` -/
  | wr (r : Reg) (v : Word)
  /-- `wr REG, r`, with `r` the value read on an earlier line (R68) -/
  | wrLastRead (r : Reg)
  /-- `rd REG` -/
  | rd (r : Reg)
  /-- `cmd MNEMONIC` -/
  | cmd (i : Instr)
deriving DecidableEq, Repr

/-- The pseudo-instructions of 30_encoding.md R68. -/
inductive Pseudo where
  | crc32 (s a n : Word)
  | crc32q (s a n : Word)
  | crc32c (a n : Word)
  | rdtab (level index : Nat)
  | rev32 (x : Word)
  | build
deriving DecidableEq, Repr

/-- The lines a pseudo-instruction expands to, exactly those of R68, in order. -/
def Pseudo.expand : Pseudo → List Line
  | .crc32 s a n => [.wr .seed s, .wr .addr a, .wr .len n, .cmd .crc, .rd .result]
  | .crc32q s a n => [.wr .seed s, .wr .addr a, .wr .len n, .cmd .crcq, .rd .result]
  | .crc32c a n => [.rd .result, .wrLastRead .seed, .wr .addr a, .wr .len n, .cmd .crc, .rd .result]
  | .rdtab level index => [.wr .tsel (BitVec.ofNat 32 ((level <<< 8) ||| index)), .cmd .rdtab, .rd .result]
  | .rev32 x => [.wr .opnd x, .cmd .rev32, .rd .result]
  | .build => [.cmd .build]

end Sys2Proof.Machine
end

