-- ==== Sys2Proof/WellFormed.lean ====
section
/-! DEFINITION. Well-formedness of what a host writes down. A command has no operand and no immediate (30_encoding.md R63),
so every `Instr` is well-formed; what can be ill-formed is a pseudo-instruction (R68) and a platform (10_state.md R31). -/

namespace Sys2Proof

/-- Every command is well-formed: it carries no field that could be out of range (30_encoding.md R63, R64). -/
def Instr.wf : Instr → Bool
  | .build | .crc | .crcq | .rdtab | .rev32 => true

/-- In `rdtab L, n`, L is 0 to 7 and n is 0 to 255; an assembler refuses other values (30_encoding.md R68). -/
def Machine.Pseudo.wf : Machine.Pseudo → Bool
  | .rdtab level index => decide (level ≤ 7) && decide (index ≤ 255)
  | .crc32 _ _ _ | .crc32q _ _ _ | .crc32c _ _ | .rev32 _ | .build => true

/-- REG_BASE is a multiple of 64 (10_state.md R31). -/
def Platform.wf (p : Platform) : Bool := decide (p.regBase % 64 = 0)

end Sys2Proof
end

