-- ==== Sys2Proof/Decode.lean ====
section
/-! DEFINITION. The command decoder and encoder (30_encoding.md R60 to R62, R65). The decoder is total on every 32-bit word:
each word is one of the five commands or an illegal command word. -/

namespace Sys2Proof

/-- What a word written to CMD is (30_encoding.md R62). -/
inductive Decoded where
  /-- One of the five commands. -/
  | command (i : Instr)
  /-- `raise IllegalCommand(w)` (60_exceptions.md R161). -/
  | illegalCommand (w : Word)
deriving DecidableEq, Repr

/-- Field OP, bits 3:0 of a command word (R60). -/
def opField (w : Word) : BitVec 4 := w.extractLsb' 0 4

/-- Field RSV, bits 31:4 of a command word, which must be 0 (R60). -/
def rsvField (w : Word) : BitVec 28 := w.extractLsb' 4 28

/-- Decode of a word written to CMD (30_encoding.md R62). -/
def decode (w : Word) : Decoded :=
  if rsvField w ≠ 0#28 then .illegalCommand w
  else match (opField w).toNat with
    | 0x1 => .command .build
    | 0x2 => .command .crc
    | 0x3 => .command .crcq
    | 0x4 => .command .rdtab
    | 0x5 => .command .rev32
    | _ => .illegalCommand w

/-- The OP value of a command (the opcode map, 30_encoding.md R61). -/
def opcode : Instr → BitVec 4
  | .build => 0x1#4
  | .crc => 0x2#4
  | .crcq => 0x3#4
  | .rdtab => 0x4#4
  | .rev32 => 0x5#4

/-- The word of a command: OP in bits 3:0, RSV = 0 in bits 31:4 (30_encoding.md R60, R61). -/
def encode (i : Instr) : Word := 0#28 ++ opcode i

/-- The command the decoder reads from an instruction of the opcode table whose first `nbits` bits are `w`; the bits above
are 0, and a command is always one 32-bit word (R60). -/
def decodeTableWord (nbits w : Nat) : Option Instr :=
  match decode (BitVec.ofNat 32 (w % 2 ^ nbits)) with
  | .command i => some i
  | .illegalCommand _ => none

end Sys2Proof
end

