-- ==== Sys2Proof/Machine/TableStore.lean ====
section
/-! DEFINITION. The table store `T[0..7][0..255]` of 32-bit entries (10_state.md R22): its type, reading an entry, and
filling a whole level or the whole store. -/

namespace Sys2Proof.Machine

/-- One level of the table store: 256 entries (R22). -/
abbrev Level := Vector Word 256

/-- The table store: 8 levels (R22). -/
abbrev Table := Vector Level 8

/-- `T[L][n]` of one level. -/
def Level.entry (l : Level) (n : Byte) : Word := l[n.toNat]'n.isLt

/-- Level `L` of the store, `L` in 0 to 7. -/
def Table.level (t : Table) (l : BitVec 3) : Level := t[l.toNat]'l.isLt

/-- `T[L][n]` (00_scope.md R10). -/
def Table.entry (t : Table) (l : BitVec 3) (n : Byte) : Word := Level.entry (Table.level t l) n

/-- The level whose entry `n` is `f n`, written for n in 0 .. 255 in that order. -/
def Level.fill (f : Byte → Word) : Level :=
  ⟨⟨(List.range 256).map fun n => f (BitVec.ofNat 8 n)⟩, by simp⟩

/-- The store whose level `L` is `f L`, written for L in 0 .. 7 in that order. -/
def Table.fill (f : Nat → Level) : Table :=
  ⟨⟨(List.range 8).map f⟩, by simp⟩

/-- The unspecified content of the table store after the reset numbered `draw` (10_state.md R35). -/
def Table.unspecified (draw : Nat) : Table :=
  Table.fill fun l => Level.fill fun n => Config.tableAfterReset draw l n.toNat

end Sys2Proof.Machine
end

