-- ==== Sys2Proof/Machine/Arith.lean ====
section
/-! DEFINITION. The pure functions of the data path: the reflected division rdiv8, the byte step step8, the word fold fold32,
the little-endian composition le32 and the bit-reversal rev32. They use only xor, logical shift, and table lookup
(00_scope.md R9). -/

namespace Sys2Proof.Machine

/-- `zext32(b)` (00_scope.md R10). -/
def zext32 (b : Byte) : Word := b.setWidth 32

/-- Byte lane k of a word, `x[8k+7:8k]` (00_scope.md R8, 42_quad_engine.md R121). -/
def lane (x : Word) (k : Nat) : Byte := x.extractLsb' (8 * k) 8

/-- `le32` (00_scope.md R10, 20_memory.md R44). -/
def le32 (b0 b1 b2 b3 : Byte) : Word :=
  zext32 b0 ||| (zext32 b1 <<< 8) ||| (zext32 b2 <<< 16) ||| (zext32 b3 <<< 24)

/-- One bit step of the reflected division: bit 0 is tested before the shift (40_table_builder.md R80). -/
def rdivStep (c : Word) : Word :=
  if c.getLsbD 0 then (c >>> 1) ^^^ Config.poly else c >>> 1

/-- `rdiv8(c)`, eight bit steps (40_table_builder.md R80). -/
def rdiv8 (c : Word) : Word := rdivStep^[8] c

/-- `step8(c, b)`, over the level `t0` = T[0] (41_bytewise_engine.md R100). -/
def step8 (t : Table) (c : Word) (b : Byte) : Word :=
  t.entry 0#3 (lane (c ^^^ zext32 b) 0) ^^^ (c >>> 8)

/-- `fold32(c, w)`, over levels 3, 2, 1 and 0 (42_quad_engine.md R120). -/
def fold32 (t : Table) (c w : Word) : Word :=
  t.entry 3#3 (lane (c ^^^ w) 0) ^^^ t.entry 2#3 (lane (c ^^^ w) 1)
    ^^^ t.entry 1#3 (lane (c ^^^ w) 2) ^^^ t.entry 0#3 (lane (c ^^^ w) 3)

/-- Write one bit of a word. -/
def setBit (y : Word) (k : Nat) (b : Bool) : Word :=
  if b then y ||| (1#32 <<< k) else y &&& ~~~(1#32 <<< k)

/-- `rev32(x)`: for i in 0 .. 31, bit 31 - i of the result is bit i of x (43_bit_reversal.md R140). -/
def rev32 (x : Word) : Word :=
  (List.range 32).foldl (fun y i => setBit y (31 - i) (x.getLsbD i)) 0#32

/-- The complement at entry and at exit of a checksum command (00_scope.md R2, R13). -/
def complement (c : Word) : Word := c ^^^ M32

/-- Level 0 of the table (40_table_builder.md R81). -/
def levelZero : Level := Level.fill fun n => rdiv8 (zext32 n)

/-- One level of the table from level 0 and the level before it (40_table_builder.md R82). -/
def levelAfter (t0 before : Level) : Level :=
  Level.fill fun n => t0.entry (lane (before.entry n) 0) ^^^ (before.entry n >>> 8)

/-- Level `L` of the built table, built in the order 0, 1, ..., L (40_table_builder.md R82). -/
def builtLevel : Nat → Level
  | 0 => levelZero
  | l + 1 => levelAfter levelZero (builtLevel l)

/-- What `build_all()` writes to the table store: it reads nothing but POLY (40_table_builder.md R85, R88). -/
def builtTable : Table := Table.fill builtLevel

end Sys2Proof.Machine
end

