-- ==== Sys2Proof/Machine/Memory.lean ====
section
/-! DEFINITION. Buffer memory as plain data (20_memory.md R40): a byte-addressed space of 2^32 bytes, held as a list of
(address, byte) pairs in one canonical form. -/

namespace Sys2Proof.Machine

/-- What an address that is not listed reads as. DESIGN CHOICE, log entry 3: the spec leaves the memory's contents to the
host (20_memory.md R42). -/
def Memory.unlisted : Byte := 0x00#8

/-- The byte the memory holds at an address, `m(x)` of 20_memory.md R42. -/
def Memory.read : List Host.Cell → Nat → Byte
  | [], _ => Memory.unlisted
  | (x, v) :: m, a => if a = x then v else Memory.read m a

/-- Put a byte at the head of the cells above it, unless it is what an unlisted address reads as. -/
def Memory.cons (a : Nat) (b : Byte) (m : List Host.Cell) : List Host.Cell :=
  if b = Memory.unlisted then m else (a, b) :: m

/-- A store of one byte, which keeps the canonical form. -/
def Memory.write : List Host.Cell → Nat → Byte → List Host.Cell
  | [], a, b => Memory.cons a b []
  | (x, v) :: m, a, b =>
    if a < x then Memory.cons a b ((x, v) :: m)
    else if a = x then Memory.cons a b m
    else (x, v) :: Memory.write m a b

/-- The canonical form: addresses strictly rising and inside the 2^32 bytes of buffer memory (20_memory.md R40), no cell
equal to what an unlisted address reads as. -/
abbrev Memory.wf (m : List Host.Cell) : Prop :=
  m.Pairwise (fun c d => c.1 < d.1) ∧ ∀ c ∈ m, c.1 < 2 ^ 32 ∧ c.2 ≠ Memory.unlisted

end Sys2Proof.Machine
end

