-- ==== Sys2Proof/Machine/State.lean ====
section
/-! DEFINITION. The state of the machine (10_state.md R20, R35), its reasons to stop, and the state after reset. -/

namespace Sys2Proof.Machine

/-- The block raises no fault: every operation is total and cannot fail (60_exceptions.md R160), an illegal command word is
a bit of STATUS (R161), and a read the platform does not admit leaves the command stuck, which is a state here (20_memory.md
R48). So this type has no constructor, which is exact. -/
inductive Fault where
deriving DecidableEq, Repr

/-- Why a step has no meaning. -/
inductive Refusal where
  /-- Raised by no arm of this model: an arm of `exec` whose command had no meaning yet would answer it. Safe. -/
  | notModelled (mnemonic : String)
  /-- Raised by a register-block access that is not 32 bits wide or not at a multiple of 4 (10_state.md R32: "a model refuses
  a host program that makes one"). Safe. -/
  | unsupportedAccess (addr width : Nat)
  /-- Raised by an access outside the 64 bytes of the register block (10_state.md R31): it reaches some other device of the
  platform, whose behaviour the spec does not give. Safe. -/
  | outsideRegisterBlock (addr : Nat)
  /-- Raised by a host line that writes the value read last (30_encoding.md R68) when the host has read none: such a program
  has no meaning. Safe. -/
  | noValueRead
deriving DecidableEq, Repr

/-- A store of one byte by another bus agent (20_memory.md R50). -/
structure Store where
  addr : Word
  byte : Byte
deriving DecidableEq, Repr

/-- The state of the block, of the buffer memory it reads, and of the events at its boundary. INVENTORY.md lists each field
with its rule and reset value. POLY is hardwired (R21) and CMD holds nothing (R31), so neither is a field. -/
structure State where
  /-- The platform's parameters REG_BASE and MemAdmits (R31, R48): written by nothing. -/
  platform : Platform
  /-- The table store (R22). -/
  table : Table
  /-- TVALID, STATUS bit 0 (R23). -/
  tvalid : Bool
  /-- ILLCMD, STATUS bit 1 (R30). -/
  illcmd : Bool
  /-- SEED (R24). -/
  seed : Word
  /-- ADDR (R25). -/
  addr : Word
  /-- LEN (R26). -/
  len : Word
  /-- RESULT (R27). -/
  result : Word
  /-- TSEL bits 10:0 (R28); its bits 31:11 are read-only 0. -/
  tsel : BitVec 11
  /-- OPND (R29). -/
  opnd : Word
  /-- The unadmitted read on which a command is stuck (R48), if one is. -/
  stuck : Option ReadReq
  /-- Buffer memory, owned by the host (R40). -/
  mem : List Host.Cell
  /-- Stores by other bus agents that fall inside the next command that runs (R50), oldest first. -/
  racing : List Store
  /-- The model's own: the events still to come at the block's boundary, in order (R12). -/
  pending : List Input
  /-- The reads on which commands got stuck, oldest first: the CMD write of each such command never completes, and no event
  takes it out, not even reset (20_memory.md R48, 70_reset_and_hazards.md R189, 92_eei_decisions.md D26; log entries 7
  and 17). -/
  unfinished : List ReadReq
  /-- Register-block accesses made while a command is stuck, oldest first: they never complete (R48; log entry 5). -/
  held : List Input
  /-- The model's own: the values the reads of all hosts returned, oldest first (30_encoding.md R67; log entries 13 and 16). -/
  observed : List Word
  /-- The model's own: the buffer reads the engine has made, oldest first (R47, 60_exceptions.md R172). -/
  readLog : List ReadReq
  /-- The model's own: how many draws of free values were made (log entries 4 and 6). -/
  draws : Nat
deriving DecidableEq, Repr

/-- The machine right after reset (10_state.md R35, 70_reset_and_hazards.md R180): the registers and status bits 0, the table
store unspecified. Memory lists nothing, no event is to come, and the platform is the one of log entry 2. -/
def State.reset : State where
  platform := { regBase := 0, refused := [] }
  table := Table.unspecified 0
  tvalid := false
  illcmd := false
  seed := 0x00000000#32
  addr := 0x00000000#32
  len := 0x00000000#32
  result := 0x00000000#32
  tsel := 0#11
  opnd := 0x00000000#32
  stuck := none
  mem := []
  racing := []
  pending := []
  unfinished := []
  held := []
  observed := []
  readLog := []
  draws := 1

end Sys2Proof.Machine
end

