-- ==== Sys2Proof/Machine/Ops.lean ====
section
/-! DEFINITION. The shared operations of the engine: building the table, reading buffer memory, the loops of the checksum
commands, and the one event the block raises. -/

namespace Sys2Proof.Machine

/-! ### The table store -/

/-- `build_all()` followed by `TVALID <- 1` (40_table_builder.md R85, R86). -/
def buildTable (s : State) : State := { s with table := builtTable, tvalid := true }

/-- `ensure_table()`, the one-time build (40_table_builder.md R85). -/
def ensureTable (s : State) : State := if s.tvalid then s else buildTable s

/-! ### Buffer memory -/

/-- `MemAdmits`: the read accesses in none of the platform's refused ranges (20_memory.md R48). -/
def memAdmits (p : Platform) (req : ReadReq) : Bool :=
  !p.refused.any fun g =>
    decide (g.width = req.width ∧ g.lo.toNat ≤ req.addr.toNat ∧ req.addr.toNat ≤ g.hi.toNat)

/-- The byte a read of address `a` sees when memory holds `b` there and the stores `racing` fall inside the command: for each
store to that address, the byte before it or the byte after it (20_memory.md R50). FREE VALUE, log entry 6. -/
def racedByte (draw : Nat) (a : Word) : List Store → Byte → Byte
  | [], b => b
  | w :: ws, b =>
    if w.addr = a then racedByte draw a ws (if Config.raceSeesNew draw a ws.length then w.byte else b)
    else racedByte draw a ws b

/-- `m(a)`: the byte of buffer memory a read of the next command sees at `a` (20_memory.md R42, R49, R50). -/
def bufByte (s : State) (a : Word) : Byte :=
  racedByte s.draws a s.racing (Memory.read s.mem a.toNat)

/-- `MemRead(a, 1)`, none where the platform does not admit the read (20_memory.md R42, R48). -/
def memRead1 (s : State) (a : Word) : Option Byte :=
  if memAdmits s.platform ⟨a, .byte⟩ then some (bufByte s a) else none

/-- `le32(MemRead(a, 4))`, none where the platform does not admit the read; addresses are modulo 2^32 (20_memory.md R42,
R44, R48). -/
def memRead4 (s : State) (a : Word) : Option Word :=
  if memAdmits s.platform ⟨a, .word⟩ then
    some (le32 (bufByte s a) (bufByte s (a + 1#32)) (bufByte s (a + 2#32)) (bufByte s (a + 3#32)))
  else none

/-! ### The loops of the checksum commands -/

/-- What a checksum command holds while it runs: the internal accumulator c, the cursor p and the remaining count r
(10_state.md R33), and the reads it has made so far, oldest first (20_memory.md R47). -/
structure Cursor where
  c : Word
  p : Word
  r : Word
  reads : List ReadReq
deriving DecidableEq, Repr

/-- How far a checksum command came: on, or stuck on a read the platform does not admit (20_memory.md R48). -/
inductive Progress where
  | on (cur : Cursor)
  | stuck (cur : Cursor) (req : ReadReq)
deriving DecidableEq, Repr

/-- Go on with `f` unless stuck. -/
def Progress.andThen (g : Progress) (f : Cursor → Progress) : Progress :=
  match g with
  | .on cur => f cur
  | .stuck cur req => .stuck cur req

/-- `repeat k times` (00_scope.md R11). -/
def repeatTimes (body : Cursor → Progress) : Nat → Cursor → Progress
  | 0, cur => .on cur
  | k + 1, cur => (body cur).andThen (repeatTimes body k)

/-- `while cond: body`, for at most `fuel` turns. Every body of a checksum command lowers r, so that LEN turns are enough for
each of its loops (70_reset_and_hazards.md R190). -/
def whileDo (cond : Cursor → Bool) (body : Cursor → Progress) : Nat → Cursor → Progress
  | 0, cur => .on cur
  | fuel + 1, cur => if cond cur then (body cur).andThen (whileDo cond body fuel) else .on cur

/-- `[b] <- MemRead(p, 1) ; c <- step8(c, b) ; p <- (p + 1) mod 2^32 ; r <- r - 1` (41_bytewise_engine.md R101,
42_quad_engine.md R122 steps 2 and 5). -/
def byteTurn (s : State) (cur : Cursor) : Progress :=
  match memRead1 s cur.p with
  | some b => .on {
      c := step8 s.table cur.c b, p := cur.p + 1#32, r := cur.r - 1#32, reads := cur.reads ++ [⟨cur.p, .byte⟩] }
  | none => .stuck cur ⟨cur.p, .byte⟩

/-- `w <- le32(MemRead(p, 4)) ; c <- fold32(c, w) ; p <- (p + 4) mod 2^32 ; r <- r - 4` (42_quad_engine.md R122 steps 3 and
4). -/
def wordTurn (s : State) (cur : Cursor) : Progress :=
  match memRead4 s cur.p with
  | some w => .on {
      c := fold32 s.table cur.c w, p := cur.p + 4#32, r := cur.r - 4#32, reads := cur.reads ++ [⟨cur.p, .word⟩] }
  | none => .stuck cur ⟨cur.p, .word⟩

/-- The end of a checksum command: RESULT is the complement of c (step 3 of the byte-wise engine, step 6 of the four-byte
engine, 90_conflicts.md C3). A stuck command writes no RESULT and never completes, which is recorded for good (20_memory.md
R48, 70_reset_and_hazards.md R189; log entry 7). -/
def finishChecksum (s : State) : Progress → State
  | .on cur => { s with result := complement cur.c, readLog := s.readLog ++ cur.reads }
  | .stuck cur req =>
    { s with stuck := some req, unfinished := s.unfinished ++ [req], readLog := s.readLog ++ cur.reads }

/-! ### The one event -/

/-- `raise IllegalCommand(w)`: ILLCMD becomes 1 and nothing else changes; the word is not recorded (60_exceptions.md R161).
There is no return from it (R165). -/
def raiseIllegalCommand (s : State) : State := { s with illcmd := true }

/-! ### Agents other than the engine -/

/-- A completed store of one byte to buffer memory (20_memory.md R49). -/
def storeByte (m : List Host.Cell) (a : Word) (b : Byte) : List Host.Cell := Memory.write m a.toNat b

/-- The window of a command closes: the stores that fell inside it are complete, in order (20_memory.md R50), and the next
command draws its free values anew. -/
def closeWindow (s : State) : State :=
  { s with
    mem := s.racing.foldl (fun m w => storeByte m w.addr w.byte) s.mem
    racing := []
    draws := s.draws + 1 }

/-- The platform's reset of the block (70_reset_and_hazards.md R180, 10_state.md R35): every register and status bit 0, the
table store unspecified again, and a stuck command abandoned: that it did not complete stays recorded in `unfinished` (log
entry 7). Nothing outside the block changes (log entry 15). -/
def resetBlock (s : State) : State :=
  { s with
    table := Table.unspecified s.draws
    tvalid := false
    illcmd := false
    seed := 0x00000000#32
    addr := 0x00000000#32
    len := 0x00000000#32
    result := 0x00000000#32
    tsel := 0#11
    opnd := 0x00000000#32
    stuck := none
    draws := s.draws + 1 }

end Sys2Proof.Machine
end

