-- ==== Sys2Proof/Machine/Operands.lean ====
section
/-! DEFINITION. The operand forms (30_encoding.md R63): every operand is a register, or a field of TSEL, read when the command
runs. -/

namespace Sys2Proof.Machine

/-- TSEL.LEVEL, bits 10:8 (10_state.md R28). -/
def tselLevel (s : State) : BitVec 3 := s.tsel.extractLsb' 8 3

/-- TSEL.INDEX, bits 7:0 (10_state.md R28). -/
def tselIndex (s : State) : Byte := s.tsel.extractLsb' 0 8

/-- What a write of `v` stores in TSEL: bits 10:0, bits 31:11 dropped (10_state.md R28, R32). -/
def tselOfWrite (v : Word) : BitVec 11 := v.extractLsb' 0 11

/-- What a read of TSEL returns: bits 31:11 read as 0 (10_state.md R28, R32). -/
def tselWord (s : State) : Word := s.tsel.setWidth 32

/-- The cursor with which a checksum command starts, from SEED, ADDR and LEN (10_state.md R33, 41_bytewise_engine.md R101,
42_quad_engine.md R122). -/
def startCursor (s : State) : Cursor where
  c := complement s.seed
  p := s.addr
  r := s.len
  reads := []

end Sys2Proof.Machine
end

