-- ==== Sys2Proof/Machine/BitReversal.lean ====
section
/-! DEFINITION. The meaning of REV32, the bit-reversal unit (43_bit_reversal.md). -/

namespace Sys2Proof.Machine

/-- REV32 (43_bit_reversal.md R141): the table store is not touched. -/
def execRev32 (s : State) : Host.Outcome State Fault Refusal := .next { s with result := rev32 s.opnd }

end Sys2Proof.Machine
end

