-- ==== Sys2Proof/Machine/ByteEngine.lean ====
section
/-! DEFINITION. The meaning of CRC, the byte-wise checksum engine (41_bytewise_engine.md). -/

namespace Sys2Proof.Machine

/-- The loop of CRC: for i in 0 .. LEN-1, one byte at (ADDR + i) mod 2^32 (41_bytewise_engine.md R101). -/
def byteWalk (s : State) : Progress := repeatTimes (byteTurn s) s.len.toNat (startCursor s)

/-- CRC (41_bytewise_engine.md R101). -/
def execCrc (s : State) : Host.Outcome State Fault Refusal :=
  .next (finishChecksum (ensureTable s) (byteWalk (ensureTable s)))

end Sys2Proof.Machine
end

