-- ==== Sys2Proof/Machine/QuadEngine.lean ====
section
/-! DEFINITION. The meaning of CRCQ, the four-byte checksum engine (42_quad_engine.md). -/

namespace Sys2Proof.Machine

/-- Step 2, the alignment phase: `while r > 0 and p mod 4 != 0` (42_quad_engine.md R122). -/
def alignPhase (s : State) (cur : Cursor) : Progress :=
  whileDo (fun k => decide (0 < k.r.toNat ∧ k.p.toNat % 4 ≠ 0)) (byteTurn s) s.len.toNat cur

/-- Step 3, the bulk phase: `while r >= 32`, eight word folds a turn (42_quad_engine.md R122). -/
def bulkPhase (s : State) (cur : Cursor) : Progress :=
  whileDo (fun k => decide (32 ≤ k.r.toNat)) (repeatTimes (wordTurn s) 8) s.len.toNat cur

/-- Step 4, the single-word phase: `while r >= 4` (42_quad_engine.md R122). -/
def wordPhase (s : State) (cur : Cursor) : Progress :=
  whileDo (fun k => decide (4 ≤ k.r.toNat)) (wordTurn s) s.len.toNat cur

/-- Step 5, the trailing phase: `while r > 0` (42_quad_engine.md R122). -/
def trailPhase (s : State) (cur : Cursor) : Progress :=
  whileDo (fun k => decide (0 < k.r.toNat)) (byteTurn s) s.len.toNat cur

/-- The four phases of CRCQ in order (42_quad_engine.md R122). -/
def quadWalk (s : State) : Progress :=
  (((alignPhase s (startCursor s)).andThen (bulkPhase s)).andThen (wordPhase s)).andThen (trailPhase s)

/-- CRCQ (42_quad_engine.md R122). -/
def execCrcq (s : State) : Host.Outcome State Fault Refusal :=
  .next (finishChecksum (ensureTable s) (quadWalk (ensureTable s)))

end Sys2Proof.Machine
end

