-- ==== Sys2Proof/Machine/TableBuilder.lean ====
section
/-! DEFINITION. The meanings of the table builder's commands, BUILD and RDTAB (40_table_builder.md). -/

namespace Sys2Proof.Machine

/-- BUILD (40_table_builder.md R86). -/
def execBuild (s : State) : Host.Outcome State Fault Refusal := .next (buildTable s)

/-- RDTAB (40_table_builder.md R87): the table is ensured first, then `RESULT <- T[TSEL.LEVEL][TSEL.INDEX]`. -/
def execRdtab (s : State) : Host.Outcome State Fault Refusal :=
  .next { ensureTable s with
    result := (ensureTable s).table.entry (tselLevel (ensureTable s)) (tselIndex (ensureTable s)) }

end Sys2Proof.Machine
end

