-- ==== Sys2Proof/Machine/Dispatch.lean ====
section
/-! DEFINITION. One arm per command (30_encoding.md R61). -/

namespace Sys2Proof.Machine

def exec (i : Instr) (s : State) : Host.Outcome State Fault Refusal :=
  match i with
  | .build => Sys2Proof.Machine.execBuild s
  | .crc => Sys2Proof.Machine.execCrc s
  | .crcq => Sys2Proof.Machine.execCrcq s
  | .rdtab => Sys2Proof.Machine.execRdtab s
  | .rev32 => Sys2Proof.Machine.execRev32 s

end Sys2Proof.Machine
end

