-- ==== Sys2Proof/Machine/Flags.lean ====
section
/-! DEFINITION. The status word (10_state.md R30). No command computes a flag: TVALID is set by the table builder (R23) and
ILLCMD by an illegal command word (60_exceptions.md R161). -/

namespace Sys2Proof.Machine

/-- STATUS: bit 0 is TVALID, bit 1 is ILLCMD, bits 31:2 read as 0 (10_state.md R30). -/
def statusWord (s : State) : Word := 0#30 ++ BitVec.ofBool s.illcmd ++ BitVec.ofBool s.tvalid

end Sys2Proof.Machine
end

