-- ==== Sys2Proof/Machine/RegisterBlock.lean ====
section
/-! DEFINITION. The register block as the host reaches it (10_state.md R31, R32), and the events at the block's boundary. -/

namespace Sys2Proof.Machine

/-- Where a host access goes. -/
inductive Target where
  /-- One of the nine registers. -/
  | reg (r : Reg)
  /-- One of the seven reserved slots. -/
  | reserved
  /-- An access with no meaning. -/
  | refused (why : Refusal)
deriving DecidableEq, Repr

/-- The slot a host access of `width` bits at `addr` reaches: a single 32-bit access at a multiple of 4 within 0x00 to 0x3C of
REG_BASE (10_state.md R31, R32). -/
def target (p : Platform) (addr width : Nat) : Target :=
  if addr < p.regBase ∨ p.regBase + 0x40 ≤ addr then .refused (.outsideRegisterBlock addr)
  else if width ≠ 32 ∨ (addr - p.regBase) % 4 ≠ 0 then .refused (.unsupportedAccess addr width)
  else match Reg.ofOffset (addr - p.regBase) with
    | some r => .reg r
    | none => .reserved

/-- The value a read of a register returns; CMD reads 0, and no read has a side effect (10_state.md R31, R32). -/
def regValue (s : State) : Reg → Word
  | .cmd => 0x00000000#32
  | .status => statusWord s
  | .seed => s.seed
  | .addr => s.addr
  | .len => s.len
  | .result => s.result
  | .tsel => tselWord s
  | .opnd => s.opnd
  | .poly => Config.poly

/-- The value a read of a slot returns; a reserved slot reads 0 (10_state.md R32). -/
def targetValue (s : State) : Target → Word
  | .reg r => regValue s r
  | .reserved | .refused _ => 0x00000000#32

/-- A command runs, and its window closes when it ends (10_state.md R31). -/
def runCommand (i : Instr) (s : State) : Host.Outcome State Fault Refusal :=
  match exec i s with
  | .next t => .next (closeWindow t)
  | .fault f => .fault f
  | .refused r => .refused r

/-- A write of the word `w` to CMD (30_encoding.md R62, 60_exceptions.md R161). -/
def writeCmd (w : Word) (s : State) : Host.Outcome State Fault Refusal :=
  match decode w with
  | .command i => runCommand i s
  | .illegalCommand _ => .next (raiseIllegalCommand s)

/-- A write of `v` to a register: a write to STATUS, RESULT or POLY is ignored, a write to TSEL stores bits 10:0, a write to
CMD executes a command (10_state.md R32). -/
def writeReg (r : Reg) (v : Word) (s : State) : Host.Outcome State Fault Refusal :=
  match r with
  | .cmd => writeCmd v s
  | .seed => .next { s with seed := v }
  | .addr => .next { s with addr := v }
  | .len => .next { s with len := v }
  | .tsel => .next { s with tsel := tselOfWrite v }
  | .opnd => .next { s with opnd := v }
  | .status | .result | .poly => .next s

/-- A write of `v` to a slot; a write to a reserved slot is ignored (10_state.md R32). -/
def writeTarget (g : Target) (v : Word) (s : State) : Host.Outcome State Fault Refusal :=
  match g with
  | .reg r => writeReg r v s
  | .reserved => .next s
  | .refused why => .refused why

/-- One event at the block's boundary (00_scope.md R12). While a command is stuck, a host access never completes: it has no
effect and is only recorded (20_memory.md R48; log entry 5). DESIGN CHOICE, log entry 8: an access is looked at for its address,
then for its width and alignment, and only then for a stuck command. DESIGN CHOICE, log entry 16: a write of the value read last
takes the last value any host has read, since neither the block nor the event names a host (60_exceptions.md R171). -/
def accept (e : Input) (s : State) : Host.Outcome State Fault Refusal :=
  match e with
  | .write addr width v =>
    match target s.platform addr width with
    | .refused why => .refused why
    | g => if s.stuck.isSome then .next { s with held := s.held ++ [e] } else writeTarget g v s
  | .writeLastRead addr width =>
    match target s.platform addr width with
    | .refused why => .refused why
    | g =>
      if s.stuck.isSome then .next { s with held := s.held ++ [e] }
      else match s.observed.getLast? with
        | some v => writeTarget g v s
        | none => .refused .noValueRead
  | .read addr width =>
    match target s.platform addr width with
    | .refused why => .refused why
    | g =>
      if s.stuck.isSome then .next { s with held := s.held ++ [e] }
      else .next { s with observed := s.observed ++ [targetValue s g] }
  | .reset => .next (resetBlock s)
  | .store a b => .next { s with mem := storeByte s.mem a b }
  | .storeDuring a b => .next { s with racing := s.racing ++ [⟨a, b⟩] }

/-- The next event happens; where none is to come the block is idle and holds its state (60_exceptions.md R173). -/
def nextEvent (s : State) : Host.Outcome State Fault Refusal :=
  match s.pending with
  | [] => .next s
  | e :: rest => accept e { s with pending := rest }

/-- The bus access a host line stands for (30_encoding.md R67, R61). -/
def assemble (p : Platform) : Line → Input
  | .wr r v => .write (p.regBase + r.offset) 32 v
  | .wrLastRead r => .writeLastRead (p.regBase + r.offset) 32
  | .rd r => .read (p.regBase + r.offset) 32
  | .cmd i => .write (p.regBase + Reg.cmd.offset) 32 (encode i)

end Sys2Proof.Machine
end

