-- ==== Sys2Proof/Machine/Step.lean ====
section
/-! DEFINITION. One step of the machine: the next event at the block's boundary. The engine itself takes a step only when the
host writes CMD (00_scope.md R12). -/

namespace Sys2Proof.Machine

/-- One step: the next event happens. -/
def step (s : State) : Host.Outcome State Fault Refusal := nextEvent s

/-- `s` with the write of the command word `w` to CMD as the next event (10_state.md R31), and with no command stuck, since a
stuck command holds every host access. Log entry 1 says how a program comes to run. -/
def State.withFetchWord (s : State) (nbits w : Nat) : State :=
  { s with
    stuck := none
    pending := .write (s.platform.regBase + Reg.cmd.offset) 32 (BitVec.ofNat 32 (w % 2 ^ nbits)) :: s.pending }

end Sys2Proof.Machine
end

