-- ==== Sys2Proof/Safety.lean ====
section
/-! DEFINITION. The terms in which claims are stated: what a good state is, what the checksum of a byte sequence is, which
reads a checksum command makes, and when a run of a host program has ended. -/

namespace Sys2Proof.Machine

/-! ### The checksum of a byte sequence -/

/-- `raw(c, B)`: the bytes folded in order with the built table (41_bytewise_engine.md R102). -/
def rawUpdate (c : Word) (bytes : List Byte) : Word := bytes.foldl (step8 builtTable) c

/-- `CRC(s, B)` (41_bytewise_engine.md R102). -/
def crcOf (seed : Word) (bytes : List Byte) : Word := complement (rawUpdate (complement seed) bytes)

/-- The same fold done bit by bit, with no table: each byte is divided in by the reflected division of
40_table_builder.md R80. -/
def bitwiseUpdate (c : Word) (bytes : List Byte) : Word := bytes.foldl (fun c b => rdiv8 (c ^^^ zext32 b)) c

/-- `z(c)`, the byte step applied to a zero byte (40_table_builder.md R84). -/
def zeroStep (c : Word) : Word := builtTable.entry 0#3 (lane c 0) ^^^ (c >>> 8)

/-- One bit step of the most-significant-bit-first division by the normal-form polynomial 0x04C11DB7 (43_bit_reversal.md
R144). -/
def normalStep (m : Word) : Word := if m.getLsbD 31 then (m <<< 1) ^^^ 0x04C11DB7#32 else m <<< 1

/-- `N(m)`: the normal-form table construction (43_bit_reversal.md R144). -/
def normalDivision (m : Byte) : Word := normalStep^[8] (zext32 m <<< 24)

/-- `rev8(n)`: bit 7 - i of the result is bit i of n (43_bit_reversal.md R144). -/
def rev8 (n : Byte) : Byte := (rev32 (zext32 n)).extractLsb' 24 8

/-! ### The buffer and the reads of a command -/

/-- The address of byte i of the buffer, `(ADDR + i) mod 2^32` (20_memory.md R45). -/
def bufAddr (a : Word) (i : Nat) : Word := a + BitVec.ofNat 32 i

/-- The bytes the next command reads from the `n` addresses from `a` on (20_memory.md R42, R46). Where a racing store falls on one
of them the byte is a free value (R50), the same for both engines and until the command's window closes: log entry 6. -/
def bytesAt (s : State) (a : Word) (n : Nat) : List Byte := (List.range n).map fun i => bufByte s (bufAddr a i)

/-- The LEN bytes of the buffer in address order (41_bytewise_engine.md R102). -/
def buffer (s : State) : List Byte := bytesAt s s.addr s.len.toNat

/-- The reads of CRC: LEN 1-byte reads in increasing offset (41_bytewise_engine.md R101). -/
def crcReads (a : Word) (n : Nat) : List ReadReq := (List.range n).map fun i => ⟨bufAddr a i, .byte⟩

/-- `a`, the length of the alignment phase (42_quad_engine.md R123). -/
def alignLen (a : Word) (n : Nat) : Nat := min n ((4 - a.toNat % 4) % 4)

/-- `q`, the turns of the bulk phase (42_quad_engine.md R123). -/
def bulkTurns (a : Word) (n : Nat) : Nat := (n - alignLen a n) / 32

/-- `s`, the words of the single-word phase (42_quad_engine.md R123). -/
def singleWords (a : Word) (n : Nat) : Nat := (n - alignLen a n) % 32 / 4

/-- `t`, the bytes of the trailing phase (42_quad_engine.md R123). -/
def trailLen (a : Word) (n : Nat) : Nat := (n - alignLen a n) % 4

/-- `8q + s`, the words CRCQ reads (42_quad_engine.md R124). -/
def wordCount (a : Word) (n : Nat) : Nat := 8 * bulkTurns a n + singleWords a n

/-- The read sequence of CRCQ (42_quad_engine.md R124). -/
def crcqReads (a : Word) (n : Nat) : List ReadReq :=
  ((List.range (alignLen a n)).map fun i => ⟨bufAddr a i, .byte⟩)
    ++ ((List.range (wordCount a n)).map fun j => ⟨bufAddr a (alignLen a n + 4 * j), .word⟩)
    ++ ((List.range (trailLen a n)).map fun i => ⟨bufAddr a (alignLen a n + 4 * wordCount a n + i), .byte⟩)

/-- The reads a command makes when every one is admitted (20_memory.md R47); the other commands read no buffer. -/
def commandReads (i : Instr) (a : Word) (n : Nat) : List ReadReq :=
  match i with
  | .crc => crcReads a n
  | .crcq => crcqReads a n
  | .build | .rdtab | .rev32 => []

/-- The addresses one read takes bytes from, in address order (20_memory.md R42). -/
def readAddrs (q : ReadReq) : List Word :=
  match q.width with
  | .byte => [q.addr]
  | .word => [q.addr, q.addr + 1#32, q.addr + 2#32, q.addr + 3#32]

/-- Every read of the list is admitted (20_memory.md R48). -/
def allAdmitted (p : Platform) (reads : List ReadReq) : Prop := ∀ q ∈ reads, memAdmits p q = true

/-- A 4-byte read is aligned (20_memory.md R43). -/
def wordAligned (q : ReadReq) : Prop := q.width = .word → q.addr.toNat % 4 = 0

/-- No agent writes a byte of the buffer while the next command runs (20_memory.md R50, 70_reset_and_hazards.md R184). -/
def BufferStable (s : State) : Prop := ∀ w ∈ s.racing, ∀ i < s.len.toNat, w.addr ≠ bufAddr s.addr i

/-! ### Good states -/

/-- TVALID = 1 means the table store holds the built table (10_state.md R23). -/
def TableValid (s : State) : Prop := s.tvalid = true → s.table = builtTable

/-- What every step keeps: TVALID tells the truth about the table store (10_state.md R23), buffer memory is in canonical form,
REG_BASE is a multiple of 64 (R31), every read the engine has made was admitted and, if of 4 bytes, aligned (20_memory.md
R43, R48), and a command is stuck only on a read that was not admitted and is aligned if of 4 bytes, with the table built (R48,
70_reset_and_hazards.md R180) and the command recorded as unfinished (70_reset_and_hazards.md R189). -/
structure Inv (s : State) : Prop where
  table : TableValid s
  mem : Memory.wf s.mem
  base : s.platform.wf = true
  reads : ∀ q ∈ s.readLog, memAdmits s.platform q = true ∧ wordAligned q
  stuck : ∀ q, s.stuck = some q → memAdmits s.platform q = false ∧ wordAligned q ∧ s.tvalid = true ∧ q ∈ s.unfinished

/-- An event is a host write to the register `r` (10_state.md R32). -/
def writesTo (p : Platform) (r : Reg) (e : Input) : Prop :=
  (∃ v, e = .write (p.regBase + r.offset) 32 v) ∨ e = .writeLastRead (p.regBase + r.offset) 32

/-- An event is a host access to the register block that the spec supports: 32 bits wide, at a multiple of 4 within 0x00 to
0x3C (10_state.md R32). -/
def supportedAccess (p : Platform) (e : Input) : Prop :=
  ∃ k < 16, (∃ v, e = .write (p.regBase + 4 * k) 32 v) ∨ e = .writeLastRead (p.regBase + 4 * k) 32
    ∨ e = .read (p.regBase + 4 * k) 32

/-- A run of a host program has ended: nothing is to come, every read has returned its value and every CMD write has completed.
A run in which a command is stuck does not end, also where a reset abandons that command (70_reset_and_hazards.md R189,
92_eei_decisions.md D26). R189 speaks of the run of one host program; that the whole event list counts as one run, over all its
hosts and across resets, so that a program is not ended while another's line is to come or after another's command got stuck, is
the model's choice (DESIGN CHOICE, log entry 17). -/
def runEnded (s : State) : Prop := s.pending = [] ∧ s.held = [] ∧ s.unfinished = [] ∧ s.stuck = none

/-- A safe run ends with no illegal command word written since reset (70_reset_and_hazards.md R188). The run is the whole
event list (DESIGN CHOICE, log entry 17). -/
def safeEnd (s : State) : Prop := runEnded s ∧ s.illcmd = false

end Sys2Proof.Machine
end

