-- ==== Sys2Proof/Certificates/Slice0/Obligations.lean ====
section
/-! DEFINITION. The statements for the provers. Each formalises a numbered rule of the spec, named in its docstring.

What stands in a statement and is the model's choice and no rule of the spec, throughout: that a step takes the first event of
`pending` (log entry 1), that nothing writes `platform` (log entry 2), the fields `observed`, `readLog` and `draws` (log entry 13),
and that a command with a refused read answers a next state (log entry 7). A docstring names the other entries it rests on. -/

section Statements

open Sys2Proof Sys2Proof.Machine

/-! ### Encoding -/

/-- Five command words and three illegal ones, written out from 30_encoding.md R60 and R61: OP in bits 3:0, RSV in bits 31:4. -/
def Obligations.DecodeOfWrittenOutWords : Prop :=
  decode 0b00000000000000000000000000000001#32 = .command .build ∧
  decode 0b00000000000000000000000000000010#32 = .command .crc ∧
  decode 0b00000000000000000000000000000011#32 = .command .crcq ∧
  decode 0b00000000000000000000000000000100#32 = .command .rdtab ∧
  decode 0b00000000000000000000000000000101#32 = .command .rev32 ∧
  decode 0b00000000000000000000000000000000#32 = .illegalCommand 0#32 ∧
  decode 0b00000000000000000000000000000110#32 = .illegalCommand 6#32 ∧
  decode 0b10000000000000000000000000000010#32 = .illegalCommand 0x80000002#32

/-- 30_encoding.md R61, R62: the five legal command words are exactly 1 to 5; every other 32-bit word is illegal. -/
def Obligations.LegalWordsAreExactlyFive : Prop :=
  ∀ w : Word,
    (decode w = .command .build ↔ w = 0x00000001#32) ∧
    (decode w = .command .crc ↔ w = 0x00000002#32) ∧
    (decode w = .command .crcq ↔ w = 0x00000003#32) ∧
    (decode w = .command .rdtab ↔ w = 0x00000004#32) ∧
    (decode w = .command .rev32 ↔ w = 0x00000005#32) ∧
    (decode w = .illegalCommand w ↔ w = 0x00000000#32 ∨ 0x00000006#32 ≤ w)

/-- Decode and encode agree in both directions (30_encoding.md R60 to R62). -/
def Obligations.DecodeEncodeAgree : Prop :=
  (∀ i : Instr, i.wf = true → decode (encode i) = .command i) ∧
  (∀ (w : Word) (i : Instr), decode w = .command i → encode i = w)

/-! ### The table builder -/

/-- 40_table_builder.md R81, R82, R86: BUILD writes every entry of the table store and TVALID, and nothing else. -/
def Obligations.BuildWritesTheTable : Prop :=
  ∀ s : State, ∃ t : State, exec .build s = .next t ∧
    t = { s with table := t.table, tvalid := true } ∧
    (∀ n : Byte, t.table.entry 0#3 n = rdiv8 (n.setWidth 32)) ∧
    (∀ (l : BitVec 3) (n : Byte), l ≠ 7#3 →
      t.table.entry (l + 1#3) n =
        t.table.entry 0#3 ((t.table.entry l n).extractLsb' 0 8) ^^^ (t.table.entry l n >>> 8))

/-- 40_table_builder.md R88: every build writes the same values, whatever the state; spot values. -/
def Obligations.BuildIsDeterministic : Prop :=
  (∀ s s' : State, ∃ t t' : State, exec .build s = .next t ∧ exec .build s' = .next t' ∧ t.table = t'.table) ∧
  builtTable.entry 0#3 0x00#8 = 0x00000000#32 ∧ builtTable.entry 0#3 0x01#8 = 0x77073096#32 ∧
  builtTable.entry 0#3 0x02#8 = 0xEE0E612C#32 ∧ builtTable.entry 0#3 0x80#8 = Config.poly ∧
  builtTable.entry 0#3 0xFF#8 = 0x2D02EF8D#32 ∧ builtTable.entry 1#3 0x01#8 = 0x191B3141#32 ∧
  builtTable.entry 2#3 0x01#8 = 0x01C26A37#32 ∧ builtTable.entry 3#3 0x01#8 = 0xB8BC6765#32 ∧
  builtTable.entry 4#3 0x01#8 = 0x3D6029B0#32 ∧ builtTable.entry 5#3 0x01#8 = 0xCB5CD3A5#32 ∧
  builtTable.entry 6#3 0x01#8 = 0xA6770BB4#32 ∧ builtTable.entry 7#3 0x01#8 = 0xCCAA009E#32

/-- 40_table_builder.md R87: RDTAB ensures the table and writes the entry TSEL selects to RESULT, and nothing else. -/
def Obligations.RdtabWritesTheSelectedEntry : Prop :=
  ∀ s : State, TableValid s →
    exec .rdtab s = .next { s with
      table := builtTable
      tvalid := true
      result := builtTable.entry (s.tsel.extractLsb' 8 3) (s.tsel.extractLsb' 0 8) }

/-- 40_table_builder.md R83: rdiv8 and every level of the table are linear over xor. -/
def Obligations.TableIsLinear : Prop :=
  (∀ a b : Word, rdiv8 (a ^^^ b) = rdiv8 a ^^^ rdiv8 b) ∧ rdiv8 0#32 = 0#32 ∧
  (∀ (l : BitVec 3) (n m : Byte),
    builtTable.entry l (n ^^^ m) = builtTable.entry l n ^^^ builtTable.entry l m) ∧
  (∀ l : BitVec 3, builtTable.entry l 0#8 = 0#32)

/-- 40_table_builder.md R84: entry n of level L is T[0][n] followed by L zero bytes, and a zero byte is step8 with 0. -/
def Obligations.LevelsAreZeroByteSteps : Prop :=
  (∀ c : Word, zeroStep c = step8 builtTable c 0#8) ∧
  (∀ (l : BitVec 3) (n : Byte), builtTable.entry l n = zeroStep^[l.toNat] (builtTable.entry 0#3 n))

/-- 43_bit_reversal.md R144: level 0 is the bit-reversed image of the normal-form table construction. -/
def Obligations.LevelZeroIsReversedNormalForm : Prop :=
  ∀ n : Byte, builtTable.entry 0#3 n = rev32 (normalDivision (rev8 n))

/-! ### The checksum engines -/

/-- 41_bytewise_engine.md R101, R102: CRC with all its reads admitted writes the checksum of the buffer to RESULT, makes LEN
1-byte reads in address order, and changes nothing else but the table. Where stores are racing on the buffer its bytes are free
values, the model's own (log entry 6). -/
def Obligations.CrcCompletesWithChecksum : Prop :=
  ∀ s : State, TableValid s → allAdmitted s.platform (crcReads s.addr s.len.toNat) →
    exec .crc s = .next { s with
      table := builtTable
      tvalid := true
      result := crcOf s.seed (buffer s)
      readLog := s.readLog ++ crcReads s.addr s.len.toNat }

/-- 42_quad_engine.md R122, R124, R125: CRCQ with all its reads admitted writes the same checksum of the buffer to RESULT,
makes the read sequence of R124, and changes nothing else but the table. Where stores are racing on the buffer its bytes are free
values, the model's own (log entry 6). -/
def Obligations.CrcqCompletesWithChecksum : Prop :=
  ∀ s : State, TableValid s → allAdmitted s.platform (crcqReads s.addr s.len.toNat) →
    exec .crcq s = .next { s with
      table := builtTable
      tvalid := true
      result := crcOf s.seed (buffer s)
      readLog := s.readLog ++ crcqReads s.addr s.len.toNat }

/-- 42_quad_engine.md R125: the two engines leave the same state but for the reads made; so RESULT is the same. In a state with
racing stores on the buffer the equal RESULT is the model's choice: it rests on log entry 6 (a free value keyed by draw and
address, not by engine), where 20_memory.md R50 and 70_reset_and_hazards.md R184 make no claim. -/
def Obligations.EnginesAgree : Prop :=
  ∀ s : State, TableValid s →
    allAdmitted s.platform (crcReads s.addr s.len.toNat) → allAdmitted s.platform (crcqReads s.addr s.len.toNat) →
    ∃ t u : State, exec .crc s = .next t ∧ exec .crcq s = .next u ∧ u.result = t.result ∧
      u = { t with readLog := u.readLog }

/-- 00_scope.md R2, 40_table_builder.md R80: the table-driven checksum equals bit-by-bit polynomial division, for CRC and for
CRCQ. Where stores are racing on the buffer its bytes are free values, the model's own (log entry 6). -/
def Obligations.ChecksumIsPolynomialDivision : Prop :=
  (∀ (seed : Word) (bytes : List Byte), crcOf seed bytes = complement (bitwiseUpdate (complement seed) bytes)) ∧
  (∀ (i : Instr) (s : State), i = .crc ∨ i = .crcq → TableValid s →
    allAdmitted s.platform (commandReads i s.addr s.len.toNat) →
    ∃ t : State, exec i s = .next t ∧ t.result = complement (bitwiseUpdate (complement s.seed) (buffer s)))

/-- 42_quad_engine.md R121: one word fold is four byte steps in address order; lane k is looked up in level 3 - k. -/
def Obligations.WordFoldIsFourByteSteps : Prop :=
  (∀ (c : Word) (b0 b1 b2 b3 : Byte),
    fold32 builtTable c (le32 b0 b1 b2 b3) =
      step8 builtTable (step8 builtTable (step8 builtTable (step8 builtTable c b0) b1) b2) b3) ∧
  (∀ c w : Word, fold32 builtTable c w =
    builtTable.entry 3#3 ((c ^^^ w).extractLsb' 0 8) ^^^ builtTable.entry 2#3 ((c ^^^ w).extractLsb' 8 8) ^^^
      builtTable.entry 1#3 ((c ^^^ w).extractLsb' 16 8) ^^^ builtTable.entry 0#3 ((c ^^^ w).extractLsb' 24 8))

/-- 42_quad_engine.md R123: the turns of the four phases of CRCQ, in every state, stuck reads included; LEN = a + 32q + 4s +
t, with s at most 7 and t at most 3. What a stuck read leaves is the model's choice (log entry 7). -/
def Obligations.QuadPhaseLengths : Prop :=
  (∀ s : State, exec .crcq s = .next (finishChecksum (ensureTable s)
    ((((repeatTimes (byteTurn (ensureTable s)) (min s.len.toNat ((4 - s.addr.toNat % 4) % 4))
        { c := s.seed ^^^ 0xFFFFFFFF#32, p := s.addr, r := s.len, reads := [] }).andThen
      (repeatTimes (repeatTimes (wordTurn (ensureTable s)) 8) (bulkTurns s.addr s.len.toNat))).andThen
      (repeatTimes (wordTurn (ensureTable s)) (singleWords s.addr s.len.toNat))).andThen
      (repeatTimes (byteTurn (ensureTable s)) (trailLen s.addr s.len.toNat))))) ∧
  (∀ (a : Word) (n : Nat),
    n = alignLen a n + 32 * bulkTurns a n + 4 * singleWords a n + trailLen a n ∧
      singleWords a n ≤ 7 ∧ trailLen a n ≤ 3)

/-- 20_memory.md R46, R47: a checksum command reads exactly the LEN bytes of the buffer, each once, in increasing offset, none
outside; every 4-byte read is aligned and CRC makes only 1-byte reads (R43). -/
def Obligations.ReadsCoverTheBufferOnce : Prop :=
  ∀ (i : Instr) (s : State), i = .crc ∨ i = .crcq →
    allAdmitted s.platform (commandReads i s.addr s.len.toNat) →
    ∃ (t : State) (reads : List ReadReq), exec i s = .next t ∧ t.readLog = s.readLog ++ reads ∧
      reads.flatMap readAddrs = (List.range s.len.toNat).map (fun k => s.addr + BitVec.ofNat 32 k) ∧
      (reads.flatMap readAddrs).Nodup ∧
      (∀ q ∈ reads, wordAligned q) ∧ (i = .crc → ∀ q ∈ reads, q.width = .byte)

/-- 41_bytewise_engine.md R104, 42_quad_engine.md R125: with LEN = 0 a checksum command writes SEED to RESULT, makes no read,
ensures the table, and changes nothing else. -/
def Obligations.EmptyBufferGivesSeed : Prop :=
  ∀ (i : Instr) (s : State), i = .crc ∨ i = .crcq → s.len = 0#32 →
    exec i s = .next { s with
      table := if s.tvalid then s.table else builtTable
      tvalid := true
      result := s.seed }

/-- 41_bytewise_engine.md R103: chaining is exact, for byte sequences. -/
def Obligations.ChecksumChains : Prop :=
  ∀ (seed : Word) (b1 b2 : List Byte), crcOf (crcOf seed b1) b2 = crcOf seed (b1 ++ b2)

/-- 41_bytewise_engine.md R103, 42_quad_engine.md R125: a buffer in two parts, the RESULT of the first command written to SEED
for the second, gives the RESULT of the whole buffer, whichever of the two engines runs each. In a state with racing stores on the
buffer the equality is the model's choice: it rests on log entry 6 (`exec` neither closes the window of racing stores nor draws
their free values anew, so that the three commands read the same bytes), where 20_memory.md R50 and 70_reset_and_hazards.md R184
make no claim about RESULT. -/
def Obligations.CommandsChain : Prop :=
  ∀ (i j k : Instr) (s : State) (n1 n2 : Nat),
    i = .crc ∨ i = .crcq → j = .crc ∨ j = .crcq → k = .crc ∨ k = .crcq →
    TableValid s → n1 + n2 = s.len.toNat →
    allAdmitted s.platform (commandReads i s.addr n1) →
    allAdmitted s.platform (commandReads j (bufAddr s.addr n1) n2) →
    allAdmitted s.platform (commandReads k s.addr (n1 + n2)) →
    ∃ t1 t2 t : State,
      exec i { s with len := BitVec.ofNat 32 n1 } = .next t1 ∧
      exec j { t1 with seed := t1.result, addr := bufAddr s.addr n1, len := BitVec.ofNat 32 n2 } = .next t2 ∧
      exec k s = .next t ∧ t2.result = t.result

/-- 41_bytewise_engine.md R102, R105: RESULT depends on SEED and the bytes read and on nothing else: not on ADDR's alignment,
TVALID, earlier commands, or the engine. Where stores are racing on a buffer its bytes are free values, the model's own (log entry
6). -/
def Obligations.ResultDependsOnSeedAndBytesOnly : Prop :=
  ∀ (i j : Instr) (s u : State), i = .crc ∨ i = .crcq → j = .crc ∨ j = .crcq →
    TableValid s → TableValid u → s.seed = u.seed → buffer s = buffer u →
    allAdmitted s.platform (commandReads i s.addr s.len.toNat) →
    allAdmitted u.platform (commandReads j u.addr u.len.toNat) →
    ∃ t v : State, exec i s = .next t ∧ exec j u = .next v ∧ t.result = v.result ∧
      t.result = crcOf s.seed (buffer s)

/-- 20_memory.md R48: a checksum command whose reads are admitted up to one that is not does not complete: RESULT is not written.
R48 gives the engine no step there; that the command answers a next state, stuck on that read, with the table built and the reads
before it made, and that it is recorded as unfinished, is the model's choice (log entry 7, DEDUCED from R48 and
92_eei_decisions.md D26). -/
def Obligations.UnadmittedReadLeavesCommandStuck : Prop :=
  ∀ (i : Instr) (s : State) (before after : List ReadReq) (q : ReadReq),
    i = .crc ∨ i = .crcq → TableValid s →
    commandReads i s.addr s.len.toNat = before ++ q :: after →
    allAdmitted s.platform before → memAdmits s.platform q = false →
    exec i s = .next { s with
      table := builtTable
      tvalid := true
      stuck := some q
      unfinished := s.unfinished ++ [q]
      readLog := s.readLog ++ before }

/-- 70_reset_and_hazards.md R190: every command whose reads are all admitted completes, after LEN reads for CRC and
a + 8q + s + t reads for CRCQ, and is not stuck. -/
def Obligations.AdmittedCommandsComplete : Prop :=
  ∀ (i : Instr) (s : State), s.stuck = none → allAdmitted s.platform (commandReads i s.addr s.len.toNat) →
    ∃ t : State, exec i s = .next t ∧ t.stuck = none ∧ t.unfinished = s.unfinished ∧
      t.readLog.length = s.readLog.length + (match i with
        | .crc => s.len.toNat
        | .crcq => alignLen s.addr s.len.toNat + 8 * bulkTurns s.addr s.len.toNat
            + singleWords s.addr s.len.toNat + trailLen s.addr s.len.toNat
        | .build | .rdtab | .rev32 => 0)

/-! ### The bit-reversal unit -/

/-- 43_bit_reversal.md R141, R140: REV32 writes the bit-reversal of OPND to RESULT and nothing else; the table is not
touched. -/
def Obligations.Rev32ReversesOperand : Prop :=
  ∀ s : State, ∃ t : State, exec .rev32 s = .next t ∧ t = { s with result := t.result } ∧
    ∀ i < 32, t.result.getLsbD (31 - i) = s.opnd.getLsbD i

/-- 43_bit_reversal.md R142: rev32 is an involution and distributes over xor. -/
def Obligations.Rev32IsInvolutionAndLinear : Prop :=
  (∀ x : Word, rev32 (rev32 x) = x) ∧ (∀ x y : Word, rev32 (x ^^^ y) = rev32 x ^^^ rev32 y)

/-- 43_bit_reversal.md R143: POLY is the bit-reversal of the normal-form polynomial, bit by bit. -/
def Obligations.PolyIsReversedNormalForm : Prop :=
  rev32 0x04C11DB7#32 = Config.poly ∧ rev32 Config.poly = 0x04C11DB7#32 ∧ Config.poly = 0xEDB88320#32

/-! ### What a command leaves alone -/

/-- 60_exceptions.md R160: no command raises anything, for any operands, any buffer and any LEN. That CRC and CRCQ answer a next
state also when a read is refused, where 20_memory.md R48 gives the engine no step, is the model's choice (log entry 7). -/
def Obligations.CommandsRaiseNothing : Prop :=
  ∀ (i : Instr) (s : State), ∃ t : State, exec i s = .next t ∧ t.illcmd = s.illcmd

/-- 10_state.md R36, 20_memory.md R41: the frame of the five commands. That CRC and CRCQ answer a next state also when a read is
refused is the model's choice (log entry 7), and so are the fields `racing`, `pending`, `held`, `observed`, `draws`, `readLog`,
`stuck` and `unfinished` (log entries 1, 5, 6, 7 and 13). -/
def Obligations.CommandsWriteOnlyTheirState : Prop :=
  ∀ (i : Instr) (s : State), ∃ t : State, exec i s = .next t ∧
    t.seed = s.seed ∧ t.addr = s.addr ∧ t.len = s.len ∧ t.tsel = s.tsel ∧ t.opnd = s.opnd ∧
    t.illcmd = s.illcmd ∧ t.platform = s.platform ∧
    t.mem = s.mem ∧ (∀ a : Nat, Memory.read t.mem a = Memory.read s.mem a) ∧
    t.racing = s.racing ∧ t.pending = s.pending ∧ t.held = s.held ∧ t.observed = s.observed ∧ t.draws = s.draws ∧
    (i = .build → t.result = s.result) ∧
    (i = .rev32 → t.table = s.table ∧ t.tvalid = s.tvalid) ∧
    (i ≠ .build → s.tvalid = true → t.table = s.table ∧ t.tvalid = true) ∧
    (i = .build ∨ i = .rdtab ∨ i = .rev32 →
      t.readLog = s.readLog ∧ t.stuck = s.stuck ∧ t.unfinished = s.unfinished)

/-! ### Steps, the register block, and the one event -/

/-- 10_state.md R31, 30_encoding.md R62: a write of a word that decodes to a command runs that command; when it ends, the
stores that fell inside it are complete (20_memory.md R50) and the next command draws its free values anew (the model's own,
log entry 6). -/
def Obligations.StepRunsDecodedCommand : Prop :=
  ∀ (s : State) (w : Word) (i : Instr) (rest : List Input),
    s.stuck = none → s.pending = .write (s.platform.regBase + 0x00) 32 w :: rest → decode w = .command i →
    step s = match exec i { s with pending := rest } with
      | .next t => .next { t with
          mem := t.racing.foldl (fun m v => Memory.write m v.addr.toNat v.byte) t.mem
          racing := []
          draws := t.draws + 1 }
      | .fault f => .fault f
      | .refused r => .refused r

/-- 60_exceptions.md R161, R164: a write of an illegal word to CMD sets ILLCMD and changes nothing else; ILLCMD then stays 1
until reset, whatever happens. -/
def Obligations.IllegalWordSetsStickyBit : Prop :=
  (∀ (s : State) (w : Word) (rest : List Input),
    s.stuck = none → s.pending = .write (s.platform.regBase + 0x00) 32 w :: rest → (∀ i : Instr, w ≠ encode i) →
    step s = .next { s with pending := rest, illcmd := true }) ∧
  (∀ s t : State, s.illcmd = true → (∀ rest, s.pending ≠ .reset :: rest) → step s = .next t → t.illcmd = true)

/-- 10_state.md R30, 30_encoding.md R65: ILLCMD is set by nothing but a write of an illegal word to CMD. -/
def Obligations.OnlyIllegalWordSetsIllcmd : Prop :=
  ∀ s t : State, s.illcmd = false → step s = .next t → t.illcmd = true →
    ∃ (w : Word) (rest : List Input),
      (s.pending = .write (s.platform.regBase + 0x00) 32 w :: rest ∨
        (s.pending = .writeLastRead (s.platform.regBase + 0x00) 32 :: rest ∧ s.observed.getLast? = some w)) ∧
      ∀ i : Instr, w ≠ encode i

/-- 10_state.md R23: TVALID is set by no event but a command, and cleared by nothing but reset. -/
def Obligations.TvalidStaysUntilReset : Prop :=
  ∀ (s t : State) (e : Input) (rest : List Input), s.pending = e :: rest → step s = .next t → e ≠ .reset →
    (s.tvalid = true → t.tvalid = true) ∧ (¬ writesTo s.platform .cmd e → t.tvalid = s.tvalid)

/-- 10_state.md R31, R32, R28, R30, R21: a read of each of the nine registers and of each reserved slot returns its value to
the host and has no other effect. That the value is recorded in `observed` is the model's own (log entry 13). -/
def Obligations.RegisterReadsReturnValues : Prop :=
  ∀ (s : State) (rest : List Input), s.stuck = none →
    (∀ r : Reg, s.pending = .read (s.platform.regBase + r.offset) 32 :: rest →
      step s = .next { s with
        pending := rest
        observed := s.observed ++ [match r with
          | .cmd => 0x00000000#32
          | .status => 0#30 ++ BitVec.ofBool s.illcmd ++ BitVec.ofBool s.tvalid
          | .seed => s.seed
          | .addr => s.addr
          | .len => s.len
          | .result => s.result
          | .tsel => s.tsel.setWidth 32
          | .opnd => s.opnd
          | .poly => 0xEDB88320#32] }) ∧
    (∀ k : Nat, 9 ≤ k → k ≤ 15 → s.pending = .read (s.platform.regBase + 4 * k) 32 :: rest →
      step s = .next { s with pending := rest, observed := s.observed ++ [0x00000000#32] })

/-- 10_state.md R32, R28: a write to SEED, ADDR, LEN or OPND stores all 32 bits, a write to TSEL bits 10:0, a write to STATUS,
RESULT, POLY or a reserved slot is ignored; nothing else changes. -/
def Obligations.RegisterWritesStoreValues : Prop :=
  ∀ (s : State) (v : Word) (rest : List Input), s.stuck = none →
    (s.pending = .write (s.platform.regBase + 0x08) 32 v :: rest → step s = .next { s with pending := rest, seed := v }) ∧
    (s.pending = .write (s.platform.regBase + 0x0C) 32 v :: rest → step s = .next { s with pending := rest, addr := v }) ∧
    (s.pending = .write (s.platform.regBase + 0x10) 32 v :: rest → step s = .next { s with pending := rest, len := v }) ∧
    (s.pending = .write (s.platform.regBase + 0x18) 32 v :: rest →
      step s = .next { s with pending := rest, tsel := v.setWidth 11 }) ∧
    (s.pending = .write (s.platform.regBase + 0x1C) 32 v :: rest → step s = .next { s with pending := rest, opnd := v }) ∧
    (∀ k : Nat, k = 1 ∨ k = 5 ∨ (8 ≤ k ∧ k ≤ 15) → s.pending = .write (s.platform.regBase + 4 * k) 32 v :: rest →
      step s = .next { s with pending := rest })

/-- 30_encoding.md R68: a line that writes the value read last is the write of that value. That this is the value of the last read
of the event list, whichever host made it, is the model's choice (log entry 16). -/
def Obligations.WriteOfLastReadIsAWrite : Prop :=
  ∀ (s : State) (a width : Nat) (v : Word) (rest : List Input), s.stuck = none → s.observed.getLast? = some v →
    step { s with pending := .writeLastRead a width :: rest } = step { s with pending := .write a width v :: rest }

/-- 30_encoding.md R67: every host line is a supported access at REG_BASE + offset, and `cmd MNEMONIC` is exactly
`wr CMD, <word>`. -/
def Obligations.HostLinesAreRegisterAccesses : Prop :=
  ∀ p : Platform,
    (∀ (r : Reg) (v : Word), assemble p (.wr r v) = .write (p.regBase + r.offset) 32 v) ∧
    (∀ r : Reg, assemble p (.rd r) = .read (p.regBase + r.offset) 32) ∧
    (∀ i : Instr, assemble p (.cmd i) = assemble p (.wr .cmd (encode i))) ∧
    (∀ l : Line, supportedAccess p (assemble p l))

/-- 30_encoding.md R68: the expansions of the pseudo-instructions, and the operands an assembler refuses. -/
def Obligations.PseudoInstructionsExpand : Prop :=
  (∀ s a n : Word, (Pseudo.crc32 s a n).expand = [.wr .seed s, .wr .addr a, .wr .len n, .cmd .crc, .rd .result]) ∧
  (∀ s a n : Word, (Pseudo.crc32q s a n).expand = [.wr .seed s, .wr .addr a, .wr .len n, .cmd .crcq, .rd .result]) ∧
  (∀ a n : Word, (Pseudo.crc32c a n).expand =
    [.rd .result, .wrLastRead .seed, .wr .addr a, .wr .len n, .cmd .crc, .rd .result]) ∧
  (∀ l n : Nat, (Pseudo.rdtab l n).expand =
    [.wr .tsel (BitVec.ofNat 32 ((l <<< 8) ||| n)), .cmd .rdtab, .rd .result]) ∧
  (∀ x : Word, (Pseudo.rev32 x).expand = [.wr .opnd x, .cmd .rev32, .rd .result]) ∧
  Pseudo.build.expand = [.cmd .build] ∧
  (∀ l n : Nat, (Pseudo.rdtab l n).wf = true ↔ l ≤ 7 ∧ n ≤ 255)

/-- 10_state.md R32: an access to the register block of another width or not at a multiple of 4 is refused. That an access outside
the 64 bytes of R31 is refused too, and that both refusals come before the look at a stuck command, is the model's choice (log
entry 8, DESIGN CHOICE), not the rules'. -/
def Obligations.UnsupportedAccessesAreRefused : Prop :=
  ∀ (s : State) (e : Input) (a width : Nat) (rest : List Input), s.pending = e :: rest →
    (∃ v, e = .write a width v) ∨ e = .writeLastRead a width ∨ e = .read a width →
    (a < s.platform.regBase ∨ s.platform.regBase + 64 ≤ a → step s = .refused (.outsideRegisterBlock a)) ∧
    (s.platform.regBase ≤ a → a < s.platform.regBase + 64 → width ≠ 32 ∨ (a - s.platform.regBase) % 4 ≠ 0 →
      step s = .refused (.unsupportedAccess a width))

/-- 20_memory.md R48: while a command is stuck, a supported host access never completes: it reads nothing, writes nothing and
runs nothing (that the machine records it is the model's own, log entry 5). -/
def Obligations.StuckCommandHoldsAccesses : Prop :=
  ∀ (s : State) (e : Input) (rest : List Input),
    s.stuck ≠ none → s.pending = e :: rest → supportedAccess s.platform e →
    step s = .next { s with pending := rest, held := s.held ++ [e] }

/-- 70_reset_and_hazards.md R180, 20_memory.md R48: no event but reset lifts a stuck command, and until then no register, no
status bit and no table entry changes and no buffer read is made. That a stuck command is a state is the model's choice (log entry
7). -/
def Obligations.OnlyResetLiftsStuckCommand : Prop :=
  ∀ (s t : State) (q : ReadReq), s.stuck = some q → (∀ rest, s.pending ≠ .reset :: rest) → step s = .next t →
    t.stuck = some q ∧ t.result = s.result ∧ t.seed = s.seed ∧ t.addr = s.addr ∧ t.len = s.len ∧ t.tsel = s.tsel ∧
      t.opnd = s.opnd ∧ t.tvalid = s.tvalid ∧ t.illcmd = s.illcmd ∧ t.table = s.table ∧ t.readLog = s.readLog ∧
      t.observed = s.observed ∧ t.unfinished = s.unfinished

/-- 10_state.md R36 and R24 to R29, over all events: an operand register changes only by a host write to it, and RESULT, the
table store, STATUS, the stuck read and the reads made only by a host write to CMD, but for reset. -/
def Obligations.OnlyNamedEventsChangeRegisters : Prop :=
  ∀ (s t : State) (e : Input) (rest : List Input), s.pending = e :: rest → step s = .next t → e ≠ .reset →
    (¬ writesTo s.platform .seed e → t.seed = s.seed) ∧
    (¬ writesTo s.platform .addr e → t.addr = s.addr) ∧
    (¬ writesTo s.platform .len e → t.len = s.len) ∧
    (¬ writesTo s.platform .tsel e → t.tsel = s.tsel) ∧
    (¬ writesTo s.platform .opnd e → t.opnd = s.opnd) ∧
    (¬ writesTo s.platform .cmd e →
      t.result = s.result ∧ t.table = s.table ∧ t.tvalid = s.tvalid ∧ t.illcmd = s.illcmd ∧ t.stuck = s.stuck ∧
        t.unfinished = s.unfinished ∧ t.readLog = s.readLog)

/-- 60_exceptions.md R173: where no event is to come the block is idle and holds its state. That every step takes exactly the first
event of `pending`, which puts the events in the order 20_memory.md R49 and R51 speak of, is the model's choice (log entry 1), and
that no step writes the platform's parameters is too (log entry 2). -/
def Obligations.EventsHappenInOrder : Prop :=
  (∀ s t : State, step s = .next t → t.pending = s.pending.tail ∧ t.platform = s.platform) ∧
  (∀ s : State, s.pending = [] → step s = .next s)

/-! ### Buffer memory -/

/-- 20_memory.md R49: a completed store is what every later read of that byte sees, and no other byte changes; the registers do
not change. -/
def Obligations.StoreIsSeenByReads : Prop :=
  ∀ (s : State) (a : Word) (b : Byte) (rest : List Input), Memory.wf s.mem → s.pending = .store a b :: rest →
    ∃ t : State, step s = .next t ∧ t = { s with pending := rest, mem := t.mem } ∧
      Memory.read t.mem a.toNat = b ∧ (∀ x : Nat, x ≠ a.toNat → Memory.read t.mem x = Memory.read s.mem x) ∧
      (s.racing = [] → bufByte t a = b)

/-- 20_memory.md R50: under a race each byte read is the byte before or the byte after a racing store to it; where no racing
store falls on an address it is the byte memory holds (R42). -/
def Obligations.RacedByteIsOldOrNew : Prop :=
  (∀ (s : State) (a : Word),
    bufByte s a = Memory.read s.mem a.toNat ∨ ∃ w ∈ s.racing, w.addr = a ∧ bufByte s a = w.byte) ∧
  (∀ s : State, BufferStable s →
    buffer s = (List.range s.len.toNat).map fun k => Memory.read s.mem (s.addr + BitVec.ofNat 32 k).toNat)

/-- 20_memory.md R50: a store by another agent inside the next command is not complete in memory before that command ends (how
it waits is the model's own, log entry 6); nothing else changes. -/
def Obligations.RacingStoreWaits : Prop :=
  ∀ (s : State) (a : Word) (b : Byte) (rest : List Input), s.pending = .storeDuring a b :: rest →
    step s = .next { s with pending := rest, racing := s.racing ++ [⟨a, b⟩] }

/-! ### Reset and the invariant -/

/-- 10_state.md R35: the machine after reset. -/
def Obligations.ResetState : Prop :=
  State.reset.tvalid = false ∧ State.reset.illcmd = false ∧ State.reset.seed = 0x00000000#32 ∧
  State.reset.addr = 0x00000000#32 ∧ State.reset.len = 0x00000000#32 ∧ State.reset.result = 0x00000000#32 ∧
  tselWord State.reset = 0x00000000#32 ∧ State.reset.opnd = 0x00000000#32 ∧
  statusWord State.reset = 0x00000000#32 ∧ regValue State.reset .poly = 0xEDB88320#32

/-- 70_reset_and_hazards.md R180: reset gives every register of the block its reset value, and lifts a stuck
command. What the statement keeps beside that is the model's choice, not R180's: memory, the platform and the events to come (log
entry 15), racing stores (log entry 6), held accesses (log entry 5), the record of commands that got stuck (log entry 7), and
`observed` and `readLog` (log entry 13). -/
def Obligations.ResetEventResetsTheBlock : Prop :=
  ∀ (s : State) (rest : List Input), s.pending = .reset :: rest →
    ∃ t : State, step s = .next t ∧
      t.tvalid = false ∧ t.illcmd = false ∧ t.seed = 0#32 ∧ t.addr = 0#32 ∧ t.len = 0#32 ∧ t.result = 0#32 ∧
      t.tsel = 0#11 ∧ t.opnd = 0#32 ∧ t.stuck = none ∧
      t.mem = s.mem ∧ t.racing = s.racing ∧ t.platform = s.platform ∧ t.pending = rest ∧ t.held = s.held ∧
      t.unfinished = s.unfinished ∧ t.observed = s.observed ∧ t.readLog = s.readLog

/-- The invariant of the machine holds after reset; the platform and the memory it speaks of are those of log entries 2 and 3. -/
def Obligations.InvariantAtReset : Prop := Inv State.reset

/-- Every step keeps the invariant: TVALID = 1 means the table store holds the built table (10_state.md R23), memory stays in
canonical form, every buffer read made was admitted (20_memory.md R48) and every 4-byte read aligned (R43), and a command is
stuck only on a read that was not admitted (log entry 7) and is recorded as unfinished (70_reset_and_hazards.md R189). The
canonical form of memory and the fields `readLog`, `stuck` and `unfinished` are the model's own (log entries 3, 7 and 13). -/
def Obligations.StepKeepsInvariant : Prop :=
  ∀ s t : State, Inv s → step s = .next t → Inv t

/-! ### The end of a run -/

/-- 70_reset_and_hazards.md R189: a run in which a command is stuck does not end. A step that leaves a command stuck records it,
and once a command has got stuck or an access was held behind it no later step ends the run, a reset included
(92_eei_decisions.md D26: no completion claim in any case). The record is the model's own (log entries 5 and 7). R189 speaks of
one host program; that the whole event list counts as one run, over all its hosts and across resets, is the model's choice (log entry 17). -/
def Obligations.StuckRunNeverEnds : Prop :=
  (∀ s t : State, s.stuck = none → step s = .next t → t.stuck ≠ none → t.unfinished ≠ [] ∧ ¬ runEnded t) ∧
  (∀ s t : State, s.unfinished ≠ [] ∨ s.held ≠ [] → step s = .next t →
    (t.unfinished ≠ [] ∨ t.held ≠ []) ∧ ¬ runEnded t)

end Statements
end

