-- ==== Sys2Proof/Laws/Memory.lean ====
section
/-! SUPPORT. The laws of buffer memory: a read after a store, and that a store keeps the canonical form. -/

namespace Sys2Proof.Machine

theorem Memory.read_cons_self (a : Nat) (b : Byte) (m : List Host.Cell) (h : ∀ c ∈ m, a < c.1) :
    Memory.read (Memory.cons a b m) a = b := by
  have hm : Memory.read m a = Memory.unlisted := by
    induction m with
    | nil => rfl
    | cons c m ih =>
      have hc := h c (by simp)
      have ih := ih fun d hd => h d (by simp [hd])
      simp only [Memory.read]
      rw [if_neg (by omega), ih]
  unfold Memory.cons
  split
  · rw [hm]; exact (‹b = _›).symm
  · simp [Memory.read]

theorem Memory.read_cons_other (a x : Nat) (b : Byte) (m : List Host.Cell) (h : x ≠ a) :
    Memory.read (Memory.cons a b m) x = Memory.read m x := by
  unfold Memory.cons
  split
  · rfl
  · simp [Memory.read, h]

/-- A read of the address just stored to gives the byte stored (20_memory.md R42, R49). -/
theorem Memory.read_write_same (m : List Host.Cell) (a : Nat) (b : Byte) (hs : m.Pairwise (fun c d => c.1 < d.1)) :
    Memory.read (Memory.write m a b) a = b := by
  induction m with
  | nil => exact Memory.read_cons_self a b [] (by simp)
  | cons c m ih =>
    obtain ⟨hc, hm⟩ := List.pairwise_cons.mp hs
    simp only [Memory.write]
    split
    · refine Memory.read_cons_self a b _ fun d hd => ?_
      rcases List.mem_cons.mp hd with rfl | hd
      · assumption
      · exact Nat.lt_trans ‹_› (hc d hd)
    · split
      · exact Memory.read_cons_self a b m fun d hd => by have := hc d hd; omega
      · simp only [Memory.read]
        rw [if_neg ‹_›]
        exact ih hm

/-- A store leaves every other address alone. -/
theorem Memory.read_write_other (m : List Host.Cell) (a x : Nat) (b : Byte) (h : x ≠ a) :
    Memory.read (Memory.write m a b) x = Memory.read m x := by
  induction m with
  | nil => exact Memory.read_cons_other a x b [] h
  | cons c m ih =>
    simp only [Memory.write]
    split
    · exact Memory.read_cons_other a x b _ h
    · split
      · subst a
        rw [Memory.read_cons_other _ _ _ _ h]
        simp [Memory.read, h]
      · simp only [Memory.read, ih]

theorem Memory.mem_cons {a : Nat} {b : Byte} {m : List Host.Cell} {d : Host.Cell} (h : d ∈ Memory.cons a b m) :
    (d = (a, b) ∧ b ≠ Memory.unlisted) ∨ d ∈ m := by
  unfold Memory.cons at h
  split at h
  · exact .inr h
  · rcases List.mem_cons.mp h with h | h
    · exact .inl ⟨h, ‹_›⟩
    · exact .inr h

theorem Memory.mem_write {m : List Host.Cell} {a : Nat} {b : Byte} {d : Host.Cell} (h : d ∈ Memory.write m a b) :
    (d = (a, b) ∧ b ≠ Memory.unlisted) ∨ d ∈ m := by
  induction m with
  | nil => exact Memory.mem_cons h
  | cons c m ih =>
    simp only [Memory.write] at h
    split at h
    · exact Memory.mem_cons h
    · split at h
      · exact (Memory.mem_cons h).imp_right (List.mem_cons_of_mem _)
      · rcases List.mem_cons.mp h with rfl | h
        · exact .inr (by simp)
        · exact (ih h).imp_right (List.mem_cons_of_mem _)

theorem Memory.pairwise_cons_of_lt {a : Nat} {b : Byte} {m : List Host.Cell} (hs : m.Pairwise (fun c d => c.1 < d.1))
    (h : ∀ c ∈ m, a < c.1) : (Memory.cons a b m).Pairwise (fun c d => c.1 < d.1) := by
  unfold Memory.cons
  split
  · exact hs
  · exact List.pairwise_cons.mpr ⟨h, hs⟩

/-- A store keeps the addresses strictly rising. -/
theorem Memory.pairwise_write (m : List Host.Cell) (a : Nat) (b : Byte) (hs : m.Pairwise (fun c d => c.1 < d.1)) :
    (Memory.write m a b).Pairwise (fun c d => c.1 < d.1) := by
  induction m with
  | nil => exact Memory.pairwise_cons_of_lt hs (by simp)
  | cons c m ih =>
    obtain ⟨hc, hm⟩ := List.pairwise_cons.mp hs
    simp only [Memory.write]
    split
    · refine Memory.pairwise_cons_of_lt hs fun d hd => ?_
      rcases List.mem_cons.mp hd with rfl | hd
      · assumption
      · exact Nat.lt_trans ‹_› (hc d hd)
    · split
      · exact Memory.pairwise_cons_of_lt hm fun d hd => by have := hc d hd; omega
      · refine List.pairwise_cons.mpr ⟨fun d hd => ?_, ih hm⟩
        rcases Memory.mem_write hd with ⟨rfl, _⟩ | hd
        · simp only; omega
        · exact hc d hd

/-- A store inside the address space keeps the canonical form. -/
theorem Memory.wf_write (m : List Host.Cell) (a : Nat) (b : Byte) (ha : a < 2 ^ 32) (h : Memory.wf m) :
    Memory.wf (Memory.write m a b) := by
  refine ⟨Memory.pairwise_write m a b h.1, fun c hc => ?_⟩
  rcases Memory.mem_write hc with ⟨rfl, hb⟩ | hc
  · exact ⟨ha, hb⟩
  · exact h.2 c hc

theorem wf_storeByte (m : List Host.Cell) (a : Word) (b : Byte) (h : Memory.wf m) : Memory.wf (storeByte m a b) :=
  Memory.wf_write m a.toNat b a.isLt h

/-- The memory after reset, which lists nothing, is in canonical form. -/
theorem wf_reset : Memory.wf State.reset.mem := ⟨List.Pairwise.nil, fun _ h => by cases h⟩

/-- The stores that fell inside a command keep the canonical form. -/
theorem wf_closeWindow (s : State) (h : Memory.wf s.mem) : Memory.wf (closeWindow s).mem := by
  show Memory.wf (s.racing.foldl (fun m w => storeByte m w.addr w.byte) s.mem)
  generalize s.mem = m at h
  induction s.racing generalizing m with
  | nil => exact h
  | cons w ws ih => exact ih _ (wf_storeByte m w.addr w.byte h)

/-- Equal memories are equal data: two canonical memories that read alike everywhere are the same list. -/
theorem Memory.ext_of_wf : ∀ {m n : List Host.Cell}, Memory.wf m → Memory.wf n →
    (∀ a, Memory.read m a = Memory.read n a) → m = n := by
  have absent : ∀ (m : List Host.Cell) (a : Nat), (∀ c ∈ m, a < c.1) → Memory.read m a = Memory.unlisted := by
    intro m a h
    induction m with
    | nil => rfl
    | cons c m ih =>
      have := h c (by simp)
      simp only [Memory.read]
      rw [if_neg (by omega), ih fun d hd => h d (by simp [hd])]
  have tail : ∀ {c : Host.Cell} {m : List Host.Cell}, Memory.wf (c :: m) → Memory.wf m ∧ ∀ d ∈ m, c.1 < d.1 :=
    fun h => ⟨⟨(List.pairwise_cons.mp h.1).2, fun d hd => h.2 d (by simp [hd])⟩, (List.pairwise_cons.mp h.1).1⟩
  intro m
  induction m with
  | nil =>
    intro n _ hn h
    cases n with
    | nil => rfl
    | cons d n =>
      have := h d.1
      simp only [Memory.read, if_true] at this
      exact absurd this.symm (hn.2 d (by simp)).2
  | cons c m ih =>
    intro n hm hn h
    obtain ⟨hm', hc⟩ := tail hm
    cases n with
    | nil =>
      have := h c.1
      simp only [Memory.read, if_true] at this
      exact absurd this (hm.2 c (by simp)).2
    | cons d n =>
      obtain ⟨hn', hd⟩ := tail hn
      have hkey : c.1 = d.1 := by
        rcases Nat.lt_trichotomy c.1 d.1 with hlt | heq | hgt
        · have := h c.1
          rw [absent (d :: n) c.1 fun e he => by
            rcases List.mem_cons.mp he with rfl | he
            · exact hlt
            · exact Nat.lt_trans hlt (hd e he)] at this
          simp only [Memory.read, if_true] at this
          exact absurd this (hm.2 c (by simp)).2
        · exact heq
        · have := h d.1
          rw [absent (c :: m) d.1 fun e he => by
            rcases List.mem_cons.mp he with rfl | he
            · exact hgt
            · exact Nat.lt_trans hgt (hc e he)] at this
          simp only [Memory.read, if_true] at this
          exact absurd this.symm (hn.2 d (by simp)).2
      have hval : c.2 = d.2 := by
        have := h c.1
        simpa [Memory.read, hkey] using this
      have hrest : m = n := ih hm' hn' fun a => by
        by_cases ha : a = c.1
        · subst ha
          rw [absent m _ hc, absent n _ (by rw [hkey]; exact hd)]
        · have := h a
          simpa [Memory.read, ha, ← hkey] using this
      rw [hrest, Prod.ext hkey hval]

end Sys2Proof.Machine
end

