-- ==== Sys2Proof/Laws/State.lean ====
section
/-! SUPPORT. What each named update of the state does to each field, one lemma per field and update. Where an update sets a
field the lemma gives its new value; every other lemma is a frame. Also the fields of the state after reset. -/

namespace Sys2Proof.Machine

variable (s : State)

/-! ### buildTable -/

@[simp] theorem buildTable_platform : (buildTable s).platform = s.platform := rfl
@[simp] theorem buildTable_table : (buildTable s).table = builtTable := rfl
@[simp] theorem buildTable_tvalid : (buildTable s).tvalid = true := rfl
@[simp] theorem buildTable_illcmd : (buildTable s).illcmd = s.illcmd := rfl
@[simp] theorem buildTable_seed : (buildTable s).seed = s.seed := rfl
@[simp] theorem buildTable_addr : (buildTable s).addr = s.addr := rfl
@[simp] theorem buildTable_len : (buildTable s).len = s.len := rfl
@[simp] theorem buildTable_result : (buildTable s).result = s.result := rfl
@[simp] theorem buildTable_tsel : (buildTable s).tsel = s.tsel := rfl
@[simp] theorem buildTable_opnd : (buildTable s).opnd = s.opnd := rfl
@[simp] theorem buildTable_stuck : (buildTable s).stuck = s.stuck := rfl
@[simp] theorem buildTable_mem : (buildTable s).mem = s.mem := rfl
@[simp] theorem buildTable_racing : (buildTable s).racing = s.racing := rfl
@[simp] theorem buildTable_pending : (buildTable s).pending = s.pending := rfl
@[simp] theorem buildTable_unfinished : (buildTable s).unfinished = s.unfinished := rfl
@[simp] theorem buildTable_held : (buildTable s).held = s.held := rfl
@[simp] theorem buildTable_observed : (buildTable s).observed = s.observed := rfl
@[simp] theorem buildTable_readLog : (buildTable s).readLog = s.readLog := rfl
@[simp] theorem buildTable_draws : (buildTable s).draws = s.draws := rfl

/-! ### raiseIllegalCommand -/

@[simp] theorem raiseIllegalCommand_platform : (raiseIllegalCommand s).platform = s.platform := rfl
@[simp] theorem raiseIllegalCommand_table : (raiseIllegalCommand s).table = s.table := rfl
@[simp] theorem raiseIllegalCommand_tvalid : (raiseIllegalCommand s).tvalid = s.tvalid := rfl
@[simp] theorem raiseIllegalCommand_illcmd : (raiseIllegalCommand s).illcmd = true := rfl
@[simp] theorem raiseIllegalCommand_seed : (raiseIllegalCommand s).seed = s.seed := rfl
@[simp] theorem raiseIllegalCommand_addr : (raiseIllegalCommand s).addr = s.addr := rfl
@[simp] theorem raiseIllegalCommand_len : (raiseIllegalCommand s).len = s.len := rfl
@[simp] theorem raiseIllegalCommand_result : (raiseIllegalCommand s).result = s.result := rfl
@[simp] theorem raiseIllegalCommand_tsel : (raiseIllegalCommand s).tsel = s.tsel := rfl
@[simp] theorem raiseIllegalCommand_opnd : (raiseIllegalCommand s).opnd = s.opnd := rfl
@[simp] theorem raiseIllegalCommand_stuck : (raiseIllegalCommand s).stuck = s.stuck := rfl
@[simp] theorem raiseIllegalCommand_mem : (raiseIllegalCommand s).mem = s.mem := rfl
@[simp] theorem raiseIllegalCommand_racing : (raiseIllegalCommand s).racing = s.racing := rfl
@[simp] theorem raiseIllegalCommand_pending : (raiseIllegalCommand s).pending = s.pending := rfl
@[simp] theorem raiseIllegalCommand_unfinished : (raiseIllegalCommand s).unfinished = s.unfinished := rfl
@[simp] theorem raiseIllegalCommand_held : (raiseIllegalCommand s).held = s.held := rfl
@[simp] theorem raiseIllegalCommand_observed : (raiseIllegalCommand s).observed = s.observed := rfl
@[simp] theorem raiseIllegalCommand_readLog : (raiseIllegalCommand s).readLog = s.readLog := rfl
@[simp] theorem raiseIllegalCommand_draws : (raiseIllegalCommand s).draws = s.draws := rfl

/-! ### closeWindow -/

@[simp] theorem closeWindow_platform : (closeWindow s).platform = s.platform := rfl
@[simp] theorem closeWindow_table : (closeWindow s).table = s.table := rfl
@[simp] theorem closeWindow_tvalid : (closeWindow s).tvalid = s.tvalid := rfl
@[simp] theorem closeWindow_illcmd : (closeWindow s).illcmd = s.illcmd := rfl
@[simp] theorem closeWindow_seed : (closeWindow s).seed = s.seed := rfl
@[simp] theorem closeWindow_addr : (closeWindow s).addr = s.addr := rfl
@[simp] theorem closeWindow_len : (closeWindow s).len = s.len := rfl
@[simp] theorem closeWindow_result : (closeWindow s).result = s.result := rfl
@[simp] theorem closeWindow_tsel : (closeWindow s).tsel = s.tsel := rfl
@[simp] theorem closeWindow_opnd : (closeWindow s).opnd = s.opnd := rfl
@[simp] theorem closeWindow_stuck : (closeWindow s).stuck = s.stuck := rfl
@[simp] theorem closeWindow_mem : (closeWindow s).mem = s.racing.foldl (fun m w => storeByte m w.addr w.byte) s.mem := rfl
@[simp] theorem closeWindow_racing : (closeWindow s).racing = [] := rfl
@[simp] theorem closeWindow_pending : (closeWindow s).pending = s.pending := rfl
@[simp] theorem closeWindow_unfinished : (closeWindow s).unfinished = s.unfinished := rfl
@[simp] theorem closeWindow_held : (closeWindow s).held = s.held := rfl
@[simp] theorem closeWindow_observed : (closeWindow s).observed = s.observed := rfl
@[simp] theorem closeWindow_readLog : (closeWindow s).readLog = s.readLog := rfl
@[simp] theorem closeWindow_draws : (closeWindow s).draws = s.draws + 1 := rfl

/-! ### resetBlock -/

@[simp] theorem resetBlock_platform : (resetBlock s).platform = s.platform := rfl
@[simp] theorem resetBlock_table : (resetBlock s).table = Table.unspecified s.draws := rfl
@[simp] theorem resetBlock_tvalid : (resetBlock s).tvalid = false := rfl
@[simp] theorem resetBlock_illcmd : (resetBlock s).illcmd = false := rfl
@[simp] theorem resetBlock_seed : (resetBlock s).seed = 0#32 := rfl
@[simp] theorem resetBlock_addr : (resetBlock s).addr = 0#32 := rfl
@[simp] theorem resetBlock_len : (resetBlock s).len = 0#32 := rfl
@[simp] theorem resetBlock_result : (resetBlock s).result = 0#32 := rfl
@[simp] theorem resetBlock_tsel : (resetBlock s).tsel = 0#11 := rfl
@[simp] theorem resetBlock_opnd : (resetBlock s).opnd = 0#32 := rfl
@[simp] theorem resetBlock_stuck : (resetBlock s).stuck = none := rfl
@[simp] theorem resetBlock_mem : (resetBlock s).mem = s.mem := rfl
@[simp] theorem resetBlock_racing : (resetBlock s).racing = s.racing := rfl
@[simp] theorem resetBlock_pending : (resetBlock s).pending = s.pending := rfl
@[simp] theorem resetBlock_unfinished : (resetBlock s).unfinished = s.unfinished := rfl
@[simp] theorem resetBlock_held : (resetBlock s).held = s.held := rfl
@[simp] theorem resetBlock_observed : (resetBlock s).observed = s.observed := rfl
@[simp] theorem resetBlock_readLog : (resetBlock s).readLog = s.readLog := rfl
@[simp] theorem resetBlock_draws : (resetBlock s).draws = s.draws + 1 := rfl

/-! ### ensureTable -/

@[simp] theorem ensureTable_platform : (ensureTable s).platform = s.platform := by unfold ensureTable; split <;> simp_all
@[simp] theorem ensureTable_tvalid : (ensureTable s).tvalid = true := by unfold ensureTable; split <;> simp_all
@[simp] theorem ensureTable_illcmd : (ensureTable s).illcmd = s.illcmd := by unfold ensureTable; split <;> simp_all
@[simp] theorem ensureTable_seed : (ensureTable s).seed = s.seed := by unfold ensureTable; split <;> simp_all
@[simp] theorem ensureTable_addr : (ensureTable s).addr = s.addr := by unfold ensureTable; split <;> simp_all
@[simp] theorem ensureTable_len : (ensureTable s).len = s.len := by unfold ensureTable; split <;> simp_all
@[simp] theorem ensureTable_result : (ensureTable s).result = s.result := by unfold ensureTable; split <;> simp_all
@[simp] theorem ensureTable_tsel : (ensureTable s).tsel = s.tsel := by unfold ensureTable; split <;> simp_all
@[simp] theorem ensureTable_opnd : (ensureTable s).opnd = s.opnd := by unfold ensureTable; split <;> simp_all
@[simp] theorem ensureTable_stuck : (ensureTable s).stuck = s.stuck := by unfold ensureTable; split <;> simp_all
@[simp] theorem ensureTable_mem : (ensureTable s).mem = s.mem := by unfold ensureTable; split <;> simp_all
@[simp] theorem ensureTable_racing : (ensureTable s).racing = s.racing := by unfold ensureTable; split <;> simp_all
@[simp] theorem ensureTable_pending : (ensureTable s).pending = s.pending := by unfold ensureTable; split <;> simp_all
@[simp] theorem ensureTable_unfinished : (ensureTable s).unfinished = s.unfinished := by unfold ensureTable; split <;> simp_all
@[simp] theorem ensureTable_held : (ensureTable s).held = s.held := by unfold ensureTable; split <;> simp_all
@[simp] theorem ensureTable_observed : (ensureTable s).observed = s.observed := by unfold ensureTable; split <;> simp_all
@[simp] theorem ensureTable_readLog : (ensureTable s).readLog = s.readLog := by unfold ensureTable; split <;> simp_all
@[simp] theorem ensureTable_draws : (ensureTable s).draws = s.draws := by unfold ensureTable; split <;> simp_all

/-- After `ensure_table()` a state whose TVALID tells the truth holds the built table (40_table_builder.md R85). -/
theorem ensureTable_table (h : s.tvalid = true → s.table = builtTable) : (ensureTable s).table = builtTable := by
  unfold ensureTable
  split
  · exact h ‹_›
  · rfl

/-- A second `ensure_table()` does nothing (40_table_builder.md R85). -/
@[simp] theorem ensureTable_ensureTable : ensureTable (ensureTable s) = ensureTable s := by
  show (if (ensureTable s).tvalid then ensureTable s else buildTable (ensureTable s)) = ensureTable s
  simp

/-! ### finishChecksum -/

@[simp] theorem finishChecksum_platform (g : Progress) : (finishChecksum s g).platform = s.platform := by cases g <;> rfl
@[simp] theorem finishChecksum_table (g : Progress) : (finishChecksum s g).table = s.table := by cases g <;> rfl
@[simp] theorem finishChecksum_tvalid (g : Progress) : (finishChecksum s g).tvalid = s.tvalid := by cases g <;> rfl
@[simp] theorem finishChecksum_illcmd (g : Progress) : (finishChecksum s g).illcmd = s.illcmd := by cases g <;> rfl
@[simp] theorem finishChecksum_seed (g : Progress) : (finishChecksum s g).seed = s.seed := by cases g <;> rfl
@[simp] theorem finishChecksum_addr (g : Progress) : (finishChecksum s g).addr = s.addr := by cases g <;> rfl
@[simp] theorem finishChecksum_len (g : Progress) : (finishChecksum s g).len = s.len := by cases g <;> rfl
@[simp] theorem finishChecksum_tsel (g : Progress) : (finishChecksum s g).tsel = s.tsel := by cases g <;> rfl
@[simp] theorem finishChecksum_opnd (g : Progress) : (finishChecksum s g).opnd = s.opnd := by cases g <;> rfl
@[simp] theorem finishChecksum_mem (g : Progress) : (finishChecksum s g).mem = s.mem := by cases g <;> rfl
@[simp] theorem finishChecksum_racing (g : Progress) : (finishChecksum s g).racing = s.racing := by cases g <;> rfl
@[simp] theorem finishChecksum_pending (g : Progress) : (finishChecksum s g).pending = s.pending := by cases g <;> rfl
@[simp] theorem finishChecksum_held (g : Progress) : (finishChecksum s g).held = s.held := by cases g <;> rfl
@[simp] theorem finishChecksum_observed (g : Progress) : (finishChecksum s g).observed = s.observed := by cases g <;> rfl
@[simp] theorem finishChecksum_draws (g : Progress) : (finishChecksum s g).draws = s.draws := by cases g <;> rfl

theorem finishChecksum_on (cur : Cursor) : finishChecksum s (.on cur) =
    { s with result := complement cur.c, readLog := s.readLog ++ cur.reads } := rfl

theorem finishChecksum_stuck (cur : Cursor) (q : ReadReq) : finishChecksum s (.stuck cur q) =
    { s with stuck := some q, unfinished := s.unfinished ++ [q], readLog := s.readLog ++ cur.reads } := rfl

/-! ### State.reset -/

@[simp] theorem reset_platform : State.reset.platform = { regBase := 0, refused := [] } := rfl
@[simp] theorem reset_table : State.reset.table = Table.unspecified 0 := rfl
@[simp] theorem reset_tvalid : State.reset.tvalid = false := rfl
@[simp] theorem reset_illcmd : State.reset.illcmd = false := rfl
@[simp] theorem reset_seed : State.reset.seed = 0#32 := rfl
@[simp] theorem reset_addr : State.reset.addr = 0#32 := rfl
@[simp] theorem reset_len : State.reset.len = 0#32 := rfl
@[simp] theorem reset_result : State.reset.result = 0#32 := rfl
@[simp] theorem reset_tsel : State.reset.tsel = 0#11 := rfl
@[simp] theorem reset_opnd : State.reset.opnd = 0#32 := rfl
@[simp] theorem reset_stuck : State.reset.stuck = none := rfl
@[simp] theorem reset_mem : State.reset.mem = [] := rfl
@[simp] theorem reset_racing : State.reset.racing = [] := rfl
@[simp] theorem reset_pending : State.reset.pending = [] := rfl
@[simp] theorem reset_unfinished : State.reset.unfinished = [] := rfl
@[simp] theorem reset_held : State.reset.held = [] := rfl
@[simp] theorem reset_observed : State.reset.observed = [] := rfl
@[simp] theorem reset_readLog : State.reset.readLog = [] := rfl
@[simp] theorem reset_draws : State.reset.draws = 1 := rfl

end Sys2Proof.Machine
end

