-- ==== Sys2Proof/Laws/Ops.lean ====
section
/-! SUPPORT. What the shared operations of the engine can do: a read, one turn of a loop body, and the two loops. -/

namespace Sys2Proof.Machine

/-! ### Reads -/

theorem memRead1_of_admits {s : State} {a : Word} (h : memAdmits s.platform ⟨a, .byte⟩ = true) :
    memRead1 s a = some (bufByte s a) := by simp [memRead1, h]

theorem memRead1_of_refused {s : State} {a : Word} (h : memAdmits s.platform ⟨a, .byte⟩ = false) :
    memRead1 s a = none := by simp [memRead1, h]

theorem memRead4_of_admits {s : State} {a : Word} (h : memAdmits s.platform ⟨a, .word⟩ = true) :
    memRead4 s a =
      some (le32 (bufByte s a) (bufByte s (a + 1#32)) (bufByte s (a + 2#32)) (bufByte s (a + 3#32))) := by
  simp [memRead4, h]

theorem memRead4_of_refused {s : State} {a : Word} (h : memAdmits s.platform ⟨a, .word⟩ = false) :
    memRead4 s a = none := by simp [memRead4, h]

/-- `ensure_table()` changes nothing that a read of the buffer depends on. -/
@[simp] theorem bufByte_ensureTable (s : State) (a : Word) : bufByte (ensureTable s) a = bufByte s a := by
  simp [bufByte]

/-- Where no racing store falls on an address, a read sees what memory holds there (20_memory.md R42). -/
theorem racedByte_of_untouched (draw : Nat) (a : Word) (ws : List Store) (b : Byte) (h : ∀ w ∈ ws, w.addr ≠ a) :
    racedByte draw a ws b = b := by
  induction ws with
  | nil => rfl
  | cons w ws ih => simp [racedByte, h w (by simp), ih fun v hv => h v (by simp [hv])]

/-! ### One turn of a loop body -/

/-- A byte turn whose read is admitted. -/
theorem byteTurn_of_admits {s : State} {cur : Cursor} (h : memAdmits s.platform ⟨cur.p, .byte⟩ = true) :
    byteTurn s cur = .on {
      c := step8 s.table cur.c (bufByte s cur.p), p := cur.p + 1#32, r := cur.r - 1#32,
      reads := cur.reads ++ [⟨cur.p, .byte⟩] } := by
  simp [byteTurn, memRead1_of_admits h]

/-- A byte turn whose read is not admitted is stuck on it. -/
theorem byteTurn_of_refused {s : State} {cur : Cursor} (h : memAdmits s.platform ⟨cur.p, .byte⟩ = false) :
    byteTurn s cur = .stuck cur ⟨cur.p, .byte⟩ := by
  simp [byteTurn, memRead1_of_refused h]

/-- A word turn whose read is admitted. -/
theorem wordTurn_of_admits {s : State} {cur : Cursor} (h : memAdmits s.platform ⟨cur.p, .word⟩ = true) :
    wordTurn s cur = .on {
      c := fold32 s.table cur.c (le32 (bufByte s cur.p) (bufByte s (cur.p + 1#32)) (bufByte s (cur.p + 2#32))
        (bufByte s (cur.p + 3#32))),
      p := cur.p + 4#32, r := cur.r - 4#32, reads := cur.reads ++ [⟨cur.p, .word⟩] } := by
  simp [wordTurn, memRead4_of_admits h]

/-- A word turn whose read is not admitted is stuck on it. -/
theorem wordTurn_of_refused {s : State} {cur : Cursor} (h : memAdmits s.platform ⟨cur.p, .word⟩ = false) :
    wordTurn s cur = .stuck cur ⟨cur.p, .word⟩ := by
  simp [wordTurn, memRead4_of_refused h]

/-! ### The loops -/

@[simp] theorem andThen_on (cur : Cursor) (f : Cursor → Progress) : (Progress.on cur).andThen f = f cur := rfl

@[simp] theorem andThen_stuck (cur : Cursor) (q : ReadReq) (f : Cursor → Progress) :
    (Progress.stuck cur q).andThen f = .stuck cur q := rfl

theorem andThen_assoc (g : Progress) (f h : Cursor → Progress) :
    (g.andThen f).andThen h = g.andThen fun cur => (f cur).andThen h := by cases g <;> rfl

@[simp] theorem repeatTimes_zero (body : Cursor → Progress) (cur : Cursor) : repeatTimes body 0 cur = .on cur := rfl

theorem repeatTimes_succ (body : Cursor → Progress) (k : Nat) (cur : Cursor) :
    repeatTimes body (k + 1) cur = (body cur).andThen (repeatTimes body k) := rfl

/-- A loop in two parts. -/
theorem repeatTimes_add (body : Cursor → Progress) (j k : Nat) (cur : Cursor) :
    repeatTimes body (j + k) cur = (repeatTimes body j cur).andThen (repeatTimes body k) := by
  induction j generalizing cur with
  | zero => simp
  | succ j ih =>
    rw [Nat.succ_add, repeatTimes_succ, repeatTimes_succ, andThen_assoc]
    congr 1
    funext cur'
    exact ih cur'

/-- A loop whose condition is false makes no turn. -/
theorem whileDo_of_not {cond : Cursor → Bool} {body : Cursor → Progress} {cur : Cursor} (h : cond cur = false)
    (fuel : Nat) : whileDo cond body fuel cur = .on cur := by
  cases fuel <;> simp [whileDo, h]

/-- A loop whose condition is true makes one turn and goes on. -/
theorem whileDo_of_cond {cond : Cursor → Bool} {body : Cursor → Progress} {cur : Cursor} (h : cond cur = true)
    (fuel : Nat) : whileDo cond body (fuel + 1) cur = (body cur).andThen (whileDo cond body fuel) := by
  simp [whileDo, h]

/-! ### What holds of a command however far it comes -/

/-- `P` holds of the cursor where the command goes on, `Q` where it is stuck. -/
def Progress.Meets (P : Cursor → Prop) (Q : Cursor → ReadReq → Prop) : Progress → Prop
  | .on cur => P cur
  | .stuck cur q => Q cur q

theorem Progress.Meets.andThen {P R : Cursor → Prop} {Q : Cursor → ReadReq → Prop} {g : Progress}
    {f : Cursor → Progress} (hg : g.Meets P Q) (hf : ∀ cur, P cur → (f cur).Meets R Q) :
    (g.andThen f).Meets R Q := by
  cases g with
  | on cur => exact hf cur hg
  | stuck cur q => exact hg

/-- What every turn keeps holds after a loop of a fixed number of turns. -/
theorem repeatTimes_meets {P : Cursor → Prop} {Q : Cursor → ReadReq → Prop} {body : Cursor → Progress}
    (hb : ∀ cur, P cur → (body cur).Meets P Q) (k : Nat) (cur : Cursor) (h : P cur) :
    (repeatTimes body k cur).Meets P Q := by
  induction k generalizing cur with
  | zero => exact h
  | succ k ih => exact (hb cur h).andThen fun cur' h' => ih cur' h'

/-- What every turn keeps where the condition holds is kept by a while loop. -/
theorem whileDo_meets {P : Cursor → Prop} {Q : Cursor → ReadReq → Prop} {cond : Cursor → Bool}
    {body : Cursor → Progress} (hb : ∀ cur, P cur → cond cur = true → (body cur).Meets P Q) (fuel : Nat)
    (cur : Cursor) (h : P cur) : (whileDo cond body fuel cur).Meets P Q := by
  induction fuel generalizing cur with
  | zero => exact h
  | succ fuel ih =>
    unfold whileDo
    split
    · exact (hb cur h ‹_›).andThen fun cur' h' => ih cur' h'
    · exact h

theorem Progress.Meets.mono {P P' : Cursor → Prop} {Q Q' : Cursor → ReadReq → Prop} {g : Progress} (h : g.Meets P Q)
    (hp : ∀ cur, P cur → P' cur) (hq : ∀ cur q, Q cur q → Q' cur q) : g.Meets P' Q' := by
  cases g with
  | on cur => exact hp cur h
  | stuck cur q => exact hq cur q h

/-- Two continuations that agree on every cursor a command can reach give the same command. -/
theorem andThen_congr {g : Progress} {P : Cursor → Prop} {Q : Cursor → ReadReq → Prop} {f f' : Cursor → Progress}
    (h : g.Meets P Q) (hf : ∀ cur, P cur → f cur = f' cur) : g.andThen f = g.andThen f' := by
  cases g with
  | on cur => exact hf cur h
  | stuck cur q => rfl

/-- Everything a byte turn can do: its read is admitted and it moves on by one byte, or it is stuck on the read. -/
theorem byteTurn_meets (s : State) (cur : Cursor) :
    (byteTurn s cur).Meets
      (fun next => memAdmits s.platform ⟨cur.p, .byte⟩ = true ∧ next.c = step8 s.table cur.c (bufByte s cur.p) ∧
        next.p = cur.p + 1#32 ∧ next.r = cur.r - 1#32 ∧ next.reads = cur.reads ++ [⟨cur.p, .byte⟩])
      (fun at' q => at' = cur ∧ q = ⟨cur.p, .byte⟩ ∧ memAdmits s.platform q = false) := by
  cases h : memAdmits s.platform ⟨cur.p, .byte⟩
  · rw [byteTurn_of_refused h]; exact ⟨rfl, rfl, h⟩
  · rw [byteTurn_of_admits h]; exact ⟨rfl, rfl, rfl, rfl, rfl⟩

/-- Everything a word turn can do: its read is admitted and it moves on by four bytes, or it is stuck on the read. -/
theorem wordTurn_meets (s : State) (cur : Cursor) :
    (wordTurn s cur).Meets
      (fun next => memAdmits s.platform ⟨cur.p, .word⟩ = true ∧
        next.c = fold32 s.table cur.c (le32 (bufByte s cur.p) (bufByte s (cur.p + 1#32)) (bufByte s (cur.p + 2#32))
          (bufByte s (cur.p + 3#32))) ∧
        next.p = cur.p + 4#32 ∧ next.r = cur.r - 4#32 ∧ next.reads = cur.reads ++ [⟨cur.p, .word⟩])
      (fun at' q => at' = cur ∧ q = ⟨cur.p, .word⟩ ∧ memAdmits s.platform q = false) := by
  cases h : memAdmits s.platform ⟨cur.p, .word⟩
  · rw [wordTurn_of_refused h]; exact ⟨rfl, rfl, h⟩
  · rw [wordTurn_of_admits h]; exact ⟨rfl, rfl, rfl, rfl, rfl⟩

/-- A loop of loops of a fixed number of turns. -/
theorem repeatTimes_mul (body : Cursor → Progress) (j k : Nat) (cur : Cursor) :
    repeatTimes (repeatTimes body j) k cur = repeatTimes body (j * k) cur := by
  induction k generalizing cur with
  | zero => rfl
  | succ k ih =>
    rw [repeatTimes_succ, Nat.mul_add, Nat.add_comm, Nat.mul_one, repeatTimes_add]
    congr 1
    funext next
    exact ih next

/-- A while loop whose remaining number of turns is known makes exactly that many, if the fuel allows them and every turn
lowers the number by one. -/
theorem whileDo_eq_repeatTimes {cond : Cursor → Bool} {body : Cursor → Progress} (turns : Cursor → Nat)
    (hc : ∀ cur, cond cur = decide (0 < turns cur))
    (hb : ∀ cur, 0 < turns cur → (body cur).Meets (fun next => turns next + 1 = turns cur) fun _ _ => True)
    (fuel : Nat) (cur : Cursor) (hf : turns cur ≤ fuel) :
    whileDo cond body fuel cur = repeatTimes body (turns cur) cur := by
  induction fuel generalizing cur with
  | zero => rw [Nat.le_zero.mp hf]; rfl
  | succ fuel ih =>
    cases ht : turns cur with
    | zero => rw [whileDo_of_not (by simp [hc, ht])]; rfl
    | succ n =>
      rw [whileDo_of_cond (by simp [hc, ht]), repeatTimes_succ]
      refine andThen_congr (hb cur (by omega)) fun next hn => ?_
      rw [ih next (by omega), show turns next = n by omega]

end Sys2Proof.Machine
end

