-- ==== Sys2Proof/Laws/PerInstr.lean ====
section
/-! SUPPORT. What holds of every command as syntax: its word has the one format of 30_encoding.md R60. -/

namespace Sys2Proof.Laws.Format

/-- The command is well-formed, field RSV of its word is 0, and field OP is its value in the opcode map (R60, R61, R63). -/
def Statement (i : Instr) : Prop := i.wf = true ∧ rsvField (encode i) = 0#28 ∧ opField (encode i) = opcode i

theorem build : Statement .build := by unfold Statement; decide

theorem crc : Statement .crc := by unfold Statement; decide

theorem crcq : Statement .crcq := by unfold Statement; decide

theorem rdtab : Statement .rdtab := by unfold Statement; decide

theorem rev32 : Statement .rev32 := by unfold Statement; decide

end Sys2Proof.Laws.Format
end

