-- ==== Sys2Proof/Laws/RegisterBlock.lean ====
section
/-! SUPPORT. Where a host access goes, and the inversion lemmas of the events: what can have happened when one answers a next
state. -/

namespace Sys2Proof.Machine

/-! ### The slots -/

theorem Reg.ofOffset_offset (r : Reg) : Reg.ofOffset r.offset = some r := by cases r <;> rfl

theorem Reg.offset_of_ofOffset {k : Nat} {r : Reg} (h : Reg.ofOffset k = some r) : k = r.offset := by
  unfold Reg.ofOffset at h
  split at h <;> simp_all <;> subst h <;> rfl

theorem Reg.offset_lt (r : Reg) : r.offset < 64 ∧ r.offset % 4 = 0 := by cases r <;> decide

/-- A 32-bit access at a register's offset reaches that register (10_state.md R31). -/
theorem target_reg (p : Platform) (r : Reg) : target p (p.regBase + r.offset) 32 = .reg r := by
  have hr := Reg.offset_lt r
  unfold target
  rw [if_neg (by omega), if_neg (by omega), Nat.add_sub_cancel_left, Reg.ofOffset_offset]

/-- A 32-bit access at one of the slots 9 to 15 reaches a reserved slot (10_state.md R31). -/
theorem target_reserved (p : Platform) (k : Nat) (h9 : 9 ≤ k) (hk : k ≤ 15) :
    target p (p.regBase + 4 * k) 32 = .reserved := by
  unfold target
  rw [if_neg (by omega), if_neg (by omega), Nat.add_sub_cancel_left]
  interval_cases k <;> rfl

/-- Only a 32-bit access at its offset reaches a register. -/
theorem target_eq_reg {p : Platform} {a width : Nat} {r : Reg} (h : target p a width = .reg r) :
    a = p.regBase + r.offset ∧ width = 32 := by
  unfold target at h
  split at h
  · cases h
  · split at h
    · cases h
    · split at h
      · injection h with h
        subst h
        have := Reg.offset_of_ofOffset ‹_›
        omega
      · cases h

/-! ### Inversion of the events -/

/-- A register-block write of `v` at the target `g` that the event `e` makes in a state where the host read `observed`. -/
def WritesAt (p : Platform) (observed : List Word) (e : Input) (g : Target) (v : Word) : Prop :=
  (∃ a width, e = .write a width v ∧ target p a width = g) ∨
    ∃ a width, e = .writeLastRead a width ∧ target p a width = g ∧ observed.getLast? = some v

/-- Everything an event can do when it answers a next state. -/
theorem accept_cases {e : Input} {s t : State} (h : accept e s = .next t) :
    (s.stuck ≠ none ∧ t = { s with held := s.held ++ [e] }) ∨
    (∃ g v, WritesAt s.platform s.observed e g v ∧ s.stuck = none ∧ writeTarget g v s = .next t) ∨
    (∃ a width, e = .read a width ∧ s.stuck = none ∧
      t = { s with observed := s.observed ++ [targetValue s (target s.platform a width)] }) ∨
    (e = .reset ∧ t = resetBlock s) ∨
    (∃ a b, e = .store a b ∧ t = { s with mem := storeByte s.mem a b }) ∨
    (∃ a b, e = .storeDuring a b ∧ t = { s with racing := s.racing ++ [⟨a, b⟩] }) := by
  have inj : ∀ {u v : State}, (Host.Outcome.next u : Host.Outcome State Fault Refusal) = .next v → v = u := by
    intro u v h; cases h; rfl
  cases e with
  | write a width v =>
    simp only [accept] at h
    split at h
    · cases h
    · cases hs : s.stuck with
      | some q => exact .inl ⟨by simp, by simpa [hs] using inj (by simpa [hs] using h)⟩
      | none => exact .inr (.inl ⟨_, v, .inl ⟨a, width, rfl, rfl⟩, rfl, by simpa [hs] using h⟩)
  | writeLastRead a width =>
    simp only [accept] at h
    split at h
    · cases h
    · cases hs : s.stuck with
      | some q => exact .inl ⟨by simp, by simpa [hs] using inj (by simpa [hs] using h)⟩
      | none =>
        cases hv : s.observed.getLast? with
        | none => simp [hs, hv] at h
        | some v => exact .inr (.inl ⟨_, v, .inr ⟨a, width, rfl, rfl, hv⟩, rfl, by simpa [hs, hv] using h⟩)
  | read a width =>
    simp only [accept] at h
    split at h
    · cases h
    · cases hs : s.stuck with
      | some q => exact .inl ⟨by simp, by simpa [hs] using inj (by simpa [hs] using h)⟩
      | none => exact .inr (.inr (.inl ⟨a, width, rfl, rfl, by simpa [hs] using inj (by simpa [hs] using h)⟩))
  | reset => exact .inr (.inr (.inr (.inl ⟨rfl, inj h⟩)))
  | store a b => exact .inr (.inr (.inr (.inr (.inl ⟨a, b, rfl, inj h⟩))))
  | storeDuring a b => exact .inr (.inr (.inr (.inr (.inr ⟨a, b, rfl, inj h⟩))))

/-- Everything a write to a slot can do when it answers a next state. -/
theorem writeTarget_cases {g : Target} {v : Word} {s t : State} (h : writeTarget g v s = .next t) :
    (t = s ∧ g ≠ .reg .cmd) ∨
    (g = .reg .seed ∧ t = { s with seed := v }) ∨ (g = .reg .addr ∧ t = { s with addr := v }) ∨
    (g = .reg .len ∧ t = { s with len := v }) ∨ (g = .reg .tsel ∧ t = { s with tsel := tselOfWrite v }) ∨
    (g = .reg .opnd ∧ t = { s with opnd := v }) ∨
    (g = .reg .cmd ∧
      ((∃ i u, decode v = .command i ∧ exec i s = .next u ∧ t = closeWindow u) ∨
        (∃ w, decode v = .illegalCommand w ∧ t = raiseIllegalCommand s))) := by
  have inj : ∀ {u v : State}, (Host.Outcome.next u : Host.Outcome State Fault Refusal) = .next v → v = u := by
    intro u v h; cases h; rfl
  cases g with
  | reserved => exact .inl ⟨inj h, by simp⟩
  | refused why => cases h
  | reg r =>
    cases r with
    | cmd =>
      refine .inr (.inr (.inr (.inr (.inr (.inr ⟨rfl, ?_⟩)))))
      simp only [writeTarget, writeReg, writeCmd] at h
      cases hd : decode v with
      | command i =>
        simp only [hd, runCommand] at h
        cases hu : exec i s with
        | next u => exact .inl ⟨i, u, rfl, hu, inj (by simpa [hu] using h)⟩
        | fault f => simp [hu] at h
        | refused r => simp [hu] at h
      | illegalCommand w => exact .inr ⟨w, rfl, inj (by simpa [hd] using h)⟩
    | seed => exact .inr (.inl ⟨rfl, inj h⟩)
    | addr => exact .inr (.inr (.inl ⟨rfl, inj h⟩))
    | len => exact .inr (.inr (.inr (.inl ⟨rfl, inj h⟩)))
    | tsel => exact .inr (.inr (.inr (.inr (.inl ⟨rfl, inj h⟩))))
    | opnd => exact .inr (.inr (.inr (.inr (.inr (.inl ⟨rfl, inj h⟩)))))
    | status => exact .inl ⟨inj h, by simp⟩
    | result => exact .inl ⟨inj h, by simp⟩
    | poly => exact .inl ⟨inj h, by simp⟩

/-- What a step can do when it answers a next state: nothing where no event is to come, else the next event. -/
theorem step_cases {s t : State} (h : step s = .next t) :
    (s.pending = [] ∧ t = s) ∨ ∃ e rest, s.pending = e :: rest ∧ accept e { s with pending := rest } = .next t := by
  unfold step nextEvent at h
  split at h
  · exact .inl ⟨‹_›, by cases h; rfl⟩
  · exact .inr ⟨_, _, ‹_›, h⟩

end Sys2Proof.Machine
end

