-- ==== Sys2Proof/Laws/TableStore.lean ====
section
/-! SUPPORT. Reading an entry back from a level or a store that was filled, and the entries of the built table. -/

namespace Sys2Proof.Machine

@[simp] theorem Level.entry_fill (f : Byte → Word) (n : Byte) : Level.entry (Level.fill f) n = f n := by
  simp [Level.entry, Level.fill]

@[simp] theorem Table.level_fill (f : Nat → Level) (l : BitVec 3) : Table.level (Table.fill f) l = f l.toNat := by
  simp [Table.level, Table.fill]

theorem builtTable_entry (l : BitVec 3) (n : Byte) :
    Table.entry builtTable l n = Level.entry (builtLevel l.toNat) n := by
  simp [Table.entry, builtTable]

/-- Level 0 of the built table (40_table_builder.md R81). -/
theorem builtTable_entry_zero (n : Byte) : Table.entry builtTable 0#3 n = rdiv8 (zext32 n) := by
  simp [builtTable_entry, builtLevel, levelZero]

/-- A level of the built table from the one before (40_table_builder.md R82). -/
theorem builtLevel_succ_entry (l : Nat) (n : Byte) :
    Level.entry (builtLevel (l + 1)) n =
      rdiv8 (zext32 (lane (Level.entry (builtLevel l) n) 0)) ^^^ (Level.entry (builtLevel l) n >>> 8) := by
  simp [builtLevel, levelAfter, levelZero]

end Sys2Proof.Machine
end

