-- ==== Sys2Proof/Tests/Slice0.lean ====
section
/-! SUPPORT. The model's own tests: the well-formedness checks, decoding of words written out by hand, one step of each command
against the vectors of 95_test_vectors.md, and for each statement a state that meets its hypotheses. -/

namespace Sys2Proof.Tests

open Sys2Proof.Machine

/-! ### Well-formedness: an ill-formed term for each check -/

theorem test_rdtab_level_refused : (Pseudo.rdtab 8 0).wf = false := by decide

theorem test_rdtab_index_refused : (Pseudo.rdtab 7 256).wf = false := by decide

theorem test_rdtab_bounds_accepted : (Pseudo.rdtab 7 255).wf = true := by decide

theorem test_regBase_refused : Platform.wf { regBase := 32, refused := [] } = false := by decide

/-! ### Decoding: words written out from 30_encoding.md R60, R61 (RSV in bits 31:4, OP in bits 3:0) -/

theorem test_decode_build : decode 0b00000000000000000000000000000001#32 = .command .build := by decide

theorem test_decode_crc : decode 0b00000000000000000000000000000010#32 = .command .crc := by decide

theorem test_decode_crcq : decode 0b00000000000000000000000000000011#32 = .command .crcq := by decide

theorem test_decode_rdtab : decode 0b00000000000000000000000000000100#32 = .command .rdtab := by decide

theorem test_decode_rev32 : decode 0b00000000000000000000000000000101#32 = .command .rev32 := by decide

/-- V-IL-05 and V-IL-06 of 95_test_vectors.md: a set RSV bit makes a word illegal. -/
theorem test_decode_reserved_bits : decode 0x00000012#32 = .illegalCommand 0x12#32 ∧
    decode 0x80000002#32 = .illegalCommand 0x80000002#32 := by decide

theorem test_decodeTableWord : decodeTableWord 32 3 = some .crcq ∧ decodeTableWord 32 6 = none := by decide

/-! ### One step of each command -/

/-- The reset state with bytes in buffer memory from address `a` on, modulo 2^32. -/
def loaded (a : Word) (bytes : List Byte) : State :=
  { State.reset with
    mem := (bytes.zipIdx).foldl (fun m e => storeByte m (a + BitVec.ofNat 32 e.2) e.1) [] }

/-- `loaded` with ADDR and LEN set to the buffer and SEED to `seed`. -/
def ready (seed a : Word) (bytes : List Byte) : State :=
  { loaded a bytes with seed := seed, addr := a, len := BitVec.ofNat 32 bytes.length }

/-- "Hello" in ASCII (95_test_vectors.md V-SRC-04). -/
def hello : List Byte := [0x48#8, 0x65#8, 0x6C#8, 0x6C#8, 0x6F#8]

/-- Bytes 0..39 (95_test_vectors.md V-QW-22). -/
def forty : List Byte := (List.range 40).map (BitVec.ofNat 8)

/-- A field of the next state, none where the step does not answer one. -/
def fieldOf {α : Type} (f : State → α) (o : Host.Outcome State Fault Refusal) : Option α :=
  match o with
  | .next t => some (f t)
  | .fault _ | .refused _ => none

/-- 95_test_vectors.md, V-TB-07: BUILD sets TVALID and leaves RESULT. -/
theorem test_build_status : fieldOf (fun t => (statusWord t, t.result)) (step (State.reset.withFetchWord 32 1)) =
    some (0x00000001#32, 0x00000000#32) := by decide +kernel

/-- 95_test_vectors.md, part 4: T[7][0xFF] and T[0][0x80]. -/
theorem test_build_entries :
    fieldOf (fun t => (t.table.entry 7#3 0xFF#8, t.table.entry 0#3 0x80#8)) (step (State.reset.withFetchWord 32 1)) =
      some (0x264B06E6#32, 0xEDB88320#32) := by decide +kernel

/-- V-BW-17: "Hello" at 0x1003. -/
theorem test_crc_hello :
    fieldOf (fun t => (t.result, t.readLog.length)) (step ((ready 0#32 0x1003#32 hello).withFetchWord 32 2)) =
      some (0xF7D18982#32, 5) := by decide +kernel

/-- V-BW-13: a nonzero seed. -/
theorem test_crc_seed :
    fieldOf State.result (step ((ready 0x12345678#32 0x1000#32 hello).withFetchWord 32 2)) = some 0x8B834F6D#32 := by
  decide +kernel

/-- V-QW-22: bytes 0..39 at 0xFFFFFFF2, which wrap past 0xFFFFFFFF; a, q, s, t = 2, 1, 1, 2, so 13 reads. -/
theorem test_crcq_wraps :
    fieldOf (fun t => (t.result, t.readLog.length)) (step ((ready 0#32 0xFFFFFFF2#32 forty).withFetchWord 32 3)) =
      some (0x0DA62E3C#32, 13) := by decide +kernel

/-- V-QW-06: bytes 0..4 at 0x1003, one byte read and one aligned word read. -/
theorem test_crcq_reads :
    fieldOf (fun t => (t.result, t.readLog)) (step ((ready 0#32 0x1003#32 (forty.take 5)).withFetchWord 32 3)) =
      some (0x515AD3CC#32, [⟨0x1003#32, .byte⟩, ⟨0x1004#32, .word⟩]) := by decide +kernel

/-- V-TB-08: RDTAB builds the table. -/
theorem test_rdtab_builds :
    fieldOf (fun t => (t.result, statusWord t))
      (step ({ State.reset with tsel := tselOfWrite 0x00000101#32 }.withFetchWord 32 4)) =
      some (0x191B3141#32, 0x00000001#32) := by decide +kernel

/-- V-TB-09: TSEL bits 31:11 are dropped; the last entry of the last level. -/
theorem test_rdtab_last :
    fieldOf (fun t => (t.result, tselWord t))
      (step ({ State.reset with tsel := tselOfWrite 0xFFFFFFFF#32 }.withFetchWord 32 4)) =
      some (0x264B06E6#32, 0x000007FF#32) := by decide +kernel

/-- V-RV-05, V-RV-13: REV32 does not build the table. -/
theorem test_rev32 :
    fieldOf (fun t => (t.result, statusWord t)) (step ({ State.reset with opnd := 0x12345678#32 }.withFetchWord 32 5)) =
      some (0x1E6A2C48#32, 0x00000000#32) := by decide +kernel

/-- V-RV-06: the normal-form polynomial. -/
theorem test_rev32_poly :
    fieldOf State.result (step ({ State.reset with opnd := 0x04C11DB7#32 }.withFetchWord 32 5)) = some 0xEDB88320#32 := by
  decide +kernel

/-- V-IL-07: an illegal word leaves RESULT. -/
theorem test_illegal_word :
    fieldOf (fun t => (statusWord t, t.result))
      (step ({ State.reset with result := 0x1E6A2C48#32 }.withFetchWord 32 0xFFFFFFFF)) =
      some (0x00000002#32, 0x1E6A2C48#32) := by decide +kernel

/-- 40_table_builder.md R80: the eight values of V-TB-01. -/
theorem test_rdiv8_steps : (List.range 8).map (fun k => rdivStep^[k + 1] 1#32) =
    [0xEDB88320#32, 0x76DC4190#32, 0x3B6E20C8#32, 0x1DB71064#32, 0x0EDB8832#32, 0x076DC419#32, 0xEE0E612C#32,
      0x77073096#32] := by decide +kernel

/-- V-QW-31 and V-QW-24. -/
theorem test_fold32 : fold32 builtTable 0xFFFFFFFF#32 0x00000000#32 = 0xDEBB20E3#32 ∧
    fold32 builtTable 0xFFFFFFFF#32 0x03020100#32 = 0x744679EC#32 := by decide +kernel

/-- V-RG-03, V-RG-05: POLY and CMD read as the register map says. -/
theorem test_reads : fieldOf State.observed (step { State.reset with pending := [.read 0x20 32] }) =
    some [0xEDB88320#32] ∧
    fieldOf State.observed (step { State.reset with pending := [.read 0x00 32] }) = some [0x00000000#32] := by
  decide +kernel

/-- P1 of 95_test_vectors.md, lines 1 to 5, as the bus accesses of its encoding column. -/
theorem test_assemble_crc32 :
    (Pseudo.crc32 0#32 0x1000#32 5#32).expand.map (assemble { regBase := 0x40, refused := [] }) =
      [.write 0x48 32 0x00000000#32, .write 0x4C 32 0x00001000#32, .write 0x50 32 0x00000005#32,
        .write 0x40 32 0x00000002#32, .read 0x54 32] := by decide

/-! ### States that meet the hypotheses of the statements -/

/-- "Hello" at 0x1003 on a platform that does not answer reads of bytes at 0x2000 to 0x2FFF or of the word at 0x1008, with the
table built. -/
def sample : State :=
  { ready 0x12345678#32 0x1003#32 hello with
    platform := { regBase := 0x40000000, refused := [⟨0x2000#32, 0x2FFF#32, .byte⟩, ⟨0x1008#32, 0x1008#32, .word⟩] }
    table := builtTable
    tvalid := true }

/-- `sample` with its last byte behind a refused read: CRC is stuck on it, and CRCQ on its only word. -/
def refusedSample : State :=
  { sample with platform := { regBase := 0x40000000, refused := [⟨0x1007#32, 0x1007#32, .byte⟩, ⟨0x1004#32, 0x1004#32, .word⟩] } }

/-- `sample` with one event to come. -/
def withEvent (e : Input) : State := { sample with pending := [e] }

theorem witness_tableValid : TableValid sample := fun _ => rfl

theorem witness_tableValid_at_reset : TableValid State.reset := fun h => by cases h

theorem witness_crcReads : allAdmitted sample.platform (crcReads sample.addr sample.len.toNat) := by
  unfold allAdmitted; decide +kernel

theorem witness_crcqReads : allAdmitted sample.platform (crcqReads sample.addr sample.len.toNat) := by
  unfold allAdmitted; decide +kernel

theorem witness_DecodeEncodeAgree : Instr.wf .crc = true ∧ decode 2#32 = .command .crc := by decide

theorem witness_BuildWritesTheTable_level : (6#3 : BitVec 3) ≠ 7#3 ∧ (0#3 : BitVec 3) ≠ 7#3 := by decide

theorem witness_RdtabWritesTheSelectedEntry : TableValid { sample with tsel := 0x7FF#11 } := fun _ => rfl

theorem witness_EnginesAgree : TableValid sample ∧ allAdmitted sample.platform (crcReads sample.addr sample.len.toNat) ∧
    allAdmitted sample.platform (crcqReads sample.addr sample.len.toNat) :=
  ⟨witness_tableValid, witness_crcReads, witness_crcqReads⟩

theorem witness_commandReads : ∀ i : Instr, i = .crc ∨ i = .crcq →
    TableValid sample ∧ allAdmitted sample.platform (commandReads i sample.addr sample.len.toNat) := by
  rintro i (rfl | rfl)
  · exact ⟨witness_tableValid, witness_crcReads⟩
  · exact ⟨witness_tableValid, witness_crcqReads⟩

theorem witness_EmptyBufferGivesSeed : State.reset.len = 0#32 := rfl

theorem witness_CommandsChain : TableValid sample ∧ 3 + 2 = sample.len.toNat ∧
    allAdmitted sample.platform (commandReads .crc sample.addr 3) ∧
    allAdmitted sample.platform (commandReads .crcq (bufAddr sample.addr 3) 2) ∧
    allAdmitted sample.platform (commandReads .crcq sample.addr (3 + 2)) := by
  refine ⟨witness_tableValid, by decide +kernel, ?_, ?_, ?_⟩ <;> (unfold allAdmitted; decide +kernel)

theorem witness_ResultDependsOnSeedAndBytesOnly :
    TableValid sample ∧ TableValid { sample with result := 5#32 } ∧
    sample.seed = { sample with result := 5#32 }.seed ∧ buffer sample = buffer { sample with result := 5#32 } :=
  ⟨witness_tableValid, fun _ => rfl, rfl, rfl⟩

theorem witness_stuck_crc : TableValid refusedSample ∧
    commandReads .crc refusedSample.addr refusedSample.len.toNat =
      crcReads 0x1003#32 4 ++ ⟨0x1007#32, .byte⟩ :: [] ∧
    allAdmitted refusedSample.platform (crcReads 0x1003#32 4) ∧
    memAdmits refusedSample.platform ⟨0x1007#32, .byte⟩ = false := by
  refine ⟨fun _ => rfl, by decide +kernel, ?_, by decide +kernel⟩
  unfold allAdmitted; decide +kernel

theorem witness_stuck_crcq : TableValid refusedSample ∧
    commandReads .crcq refusedSample.addr refusedSample.len.toNat =
      [⟨0x1003#32, .byte⟩] ++ ⟨0x1004#32, .word⟩ :: [] ∧
    allAdmitted refusedSample.platform [⟨0x1003#32, .byte⟩] ∧
    memAdmits refusedSample.platform ⟨0x1004#32, .word⟩ = false := by
  refine ⟨fun _ => rfl, by decide +kernel, ?_, by decide +kernel⟩
  unfold allAdmitted; decide +kernel

/-- 70_reset_and_hazards.md R189: a command that gets stuck stays on record as not completed, and a reset does not end the run. -/
theorem test_stuck_run_does_not_end :
    fieldOf State.unfinished (step (refusedSample.withFetchWord 32 3)) = some [⟨0x1004#32, .word⟩] ∧
    fieldOf (fun t => (t.stuck, t.unfinished))
      (step { withEvent .reset with stuck := some ⟨0x1004#32, .word⟩, unfinished := [⟨0x1004#32, .word⟩] }) =
      some (none, [⟨0x1004#32, .word⟩]) := by decide +kernel

theorem witness_StuckRunNeverEnds :
    (∃ t, (refusedSample.withFetchWord 32 2).stuck = none ∧ step (refusedSample.withFetchWord 32 2) = .next t ∧
      t.stuck ≠ none) ∧
    (∃ t, State.unfinished { withEvent .reset with unfinished := [⟨0x1004#32, .word⟩] } ≠ [] ∧
      step { withEvent .reset with unfinished := [⟨0x1004#32, .word⟩] } = .next t) ∧
    ∃ t, State.held { withEvent .reset with held := [.read 0x40000014 32] } ≠ [] ∧
      step { withEvent .reset with held := [.read 0x40000014 32] } = .next t :=
  ⟨⟨_, rfl, rfl, by decide +kernel⟩, ⟨_, by decide, rfl⟩, _, by decide, rfl⟩

theorem witness_AdmittedCommandsComplete : sample.stuck = none ∧
    allAdmitted sample.platform (commandReads .crcq sample.addr sample.len.toNat) := ⟨rfl, witness_crcqReads⟩

theorem witness_CommandsWriteOnlyTheirState : sample.tvalid = true ∧ Instr.crcq ≠ .build := ⟨rfl, by decide⟩

theorem witness_StepRunsDecodedCommand (w : Word) (i : Instr) (h : decode w = .command i) :
    (withEvent (.write 0x40000000 32 w)).stuck = none ∧
    (withEvent (.write 0x40000000 32 w)).pending =
      .write ((withEvent (.write 0x40000000 32 w)).platform.regBase + 0x00) 32 w :: [] ∧ decode w = .command i :=
  ⟨rfl, rfl, h⟩

theorem witness_IllegalWordSetsStickyBit : (withEvent (.write 0x40000000 32 0x12#32)).stuck = none ∧
    (withEvent (.write 0x40000000 32 0x12#32)).pending =
      .write ((withEvent (.write 0x40000000 32 0x12#32)).platform.regBase + 0x00) 32 0x12#32 :: [] ∧
    ∀ i : Instr, 0x12#32 ≠ encode i := by
  refine ⟨rfl, rfl, fun i => ?_⟩
  cases i <;> decide

theorem witness_sticky : State.illcmd { withEvent (.read 0x40000000 32) with illcmd := true } = true ∧
    (∀ rest, State.pending { withEvent (.read 0x40000000 32) with illcmd := true } ≠ .reset :: rest) ∧
    ∃ t, step { withEvent (.read 0x40000000 32) with illcmd := true } = .next t := by
  refine ⟨rfl, fun rest h => ?_, _, rfl⟩
  cases h

theorem witness_OnlyIllegalWordSetsIllcmd :
    ∃ t, (withEvent (.write 0x40000000 32 6#32)).illcmd = false ∧ step (withEvent (.write 0x40000000 32 6#32)) = .next t ∧
      t.illcmd = true := ⟨_, rfl, rfl, rfl⟩

theorem witness_writesTo : ¬ writesTo sample.platform .cmd (.write 0x40000008 32 5#32) ∧
    writesTo sample.platform .seed (.write 0x40000008 32 5#32) := by
  constructor
  · rintro (⟨v, h⟩ | h) <;> cases h
  · exact .inl ⟨_, rfl⟩

theorem witness_events : (withEvent (.write 0x40000008 32 5#32)).pending = .write 0x40000008 32 5#32 :: [] ∧
    (∃ t, step (withEvent (.write 0x40000008 32 5#32)) = .next t) ∧ Input.write 0x40000008 32 5#32 ≠ .reset :=
  ⟨rfl, ⟨_, rfl⟩, by decide⟩

theorem witness_RegisterReadsReturnValues (r : Reg) :
    (withEvent (.read (0x40000000 + r.offset) 32)).stuck = none ∧
    (withEvent (.read (0x40000000 + r.offset) 32)).pending =
      .read ((withEvent (.read (0x40000000 + r.offset) 32)).platform.regBase + r.offset) 32 :: [] := ⟨rfl, rfl⟩

theorem witness_slot (k : Nat) :
    (withEvent (.write (0x40000000 + 4 * k) 32 7#32)).pending =
      .write ((withEvent (.write (0x40000000 + 4 * k) 32 7#32)).platform.regBase + 4 * k) 32 7#32 :: [] := rfl

theorem witness_slot_bounds : (9 ≤ 9 ∧ 9 ≤ 15) ∧ (9 ≤ 15 ∧ 15 ≤ 15) ∧ (8 = 1 ∨ 8 = 5 ∨ (8 ≤ 8 ∧ 8 ≤ 15)) := by decide

theorem witness_WriteOfLastReadIsAWrite : State.stuck { sample with observed := [7#32] } = none ∧
    (State.observed { sample with observed := [7#32] }).getLast? = some 7#32 := ⟨rfl, rfl⟩

theorem witness_UnsupportedAccessesAreRefused :
    (withEvent (.read 0x4000003F 32)).pending = .read 0x4000003F 32 :: [] ∧
    (0x3FFFFFFF < sample.platform.regBase ∨ sample.platform.regBase + 64 ≤ 0x3FFFFFFF) ∧
    (0x40000040 < sample.platform.regBase ∨ sample.platform.regBase + 64 ≤ 0x40000040) ∧
    (sample.platform.regBase ≤ 0x4000003F ∧ 0x4000003F < sample.platform.regBase + 64 ∧
      (32 ≠ 32 ∨ (0x4000003F - sample.platform.regBase) % 4 ≠ 0)) ∧
    (sample.platform.regBase ≤ 0x40000000 ∧ 0x40000000 < sample.platform.regBase + 64 ∧
      (16 ≠ 32 ∨ (0x40000000 - sample.platform.regBase) % 4 ≠ 0)) := by decide

theorem witness_StuckCommandHoldsAccesses :
    State.stuck { withEvent (.read 0x4000003C 32) with stuck := some ⟨0x1008#32, .word⟩ } ≠ none ∧
    State.pending { withEvent (.read 0x4000003C 32) with stuck := some ⟨0x1008#32, .word⟩ } = .read 0x4000003C 32 :: [] ∧
    supportedAccess sample.platform (.read 0x4000003C 32) ∧ supportedAccess sample.platform (.write 0x40000000 32 2#32) :=
  ⟨by decide, rfl, ⟨15, by decide, .inr (.inr rfl)⟩, ⟨0, by decide, .inl ⟨_, rfl⟩⟩⟩

theorem witness_OnlyResetLiftsStuckCommand :
    State.stuck { withEvent (.write 0x40000000 32 2#32) with stuck := some ⟨0x1008#32, .word⟩ } = some ⟨0x1008#32, .word⟩ ∧
    (∀ rest, State.pending { withEvent (.write 0x40000000 32 2#32) with stuck := some ⟨0x1008#32, .word⟩ } ≠ .reset :: rest) ∧
    ∃ t, step { withEvent (.write 0x40000000 32 2#32) with stuck := some ⟨0x1008#32, .word⟩ } = .next t := by
  refine ⟨rfl, fun rest h => ?_, _, rfl⟩
  cases h

theorem witness_RacingStoreWaits : (withEvent (.storeDuring 0x1003#32 1#8)).pending = .storeDuring 0x1003#32 1#8 :: [] := rfl

theorem witness_StoreIsSeenByReads : Memory.wf (withEvent (.store 0xFFFFFFFF#32 1#8)).mem ∧
    (withEvent (.store 0xFFFFFFFF#32 1#8)).pending = .store 0xFFFFFFFF#32 1#8 :: [] ∧
    (withEvent (.store 0xFFFFFFFF#32 1#8)).racing = [] := by
  refine ⟨?_, rfl, rfl⟩
  unfold Memory.wf; decide +kernel

theorem witness_RacedByteIsOldOrNew : BufferStable { sample with racing := [⟨0x1002#32, 9#8⟩, ⟨0x1008#32, 9#8⟩] } := by
  unfold BufferStable; decide +kernel

theorem witness_ResetEventResetsTheBlock : (withEvent .reset).pending = .reset :: [] := rfl

/-- A state with the table built, bytes in memory, a read made and a command stuck meets the invariant. -/
theorem witness_StepKeepsInvariant :
    ∃ s t : State, Inv s ∧ s.stuck ≠ none ∧ s.readLog ≠ [] ∧ s.mem ≠ [] ∧ step s = .next t :=
  ⟨{ withEvent (.read 0x40000004 32) with
      stuck := some ⟨0x1008#32, .word⟩, unfinished := [⟨0x1008#32, .word⟩], readLog := [⟨0x1004#32, .word⟩] }, _,
    { table := fun _ => rfl
      mem := by unfold Memory.wf; decide +kernel
      base := by decide
      reads := by
        intro q hq
        rw [List.mem_singleton.mp hq]
        exact ⟨by decide +kernel, fun _ => by decide⟩
      stuck := by
        intro q hq
        cases hq
        exact ⟨by decide +kernel, fun _ => by decide, rfl, by decide⟩ },
    by decide, by decide, by decide +kernel, rfl⟩

end Sys2Proof.Tests
end

section
/-! PROOF. The reflected division and the table made from it: `rdiv8` is linear over xor, every level of the built table is
an iterate of `rdiv8`, and so a byte step and a word fold are divisions with no table (40_table_builder.md R80 to R84,
41_bytewise_engine.md R100, 42_quad_engine.md R120, R121). -/

namespace Sys2Proof.Machine

/-! ### The reflected division -/

theorem rdivStep_xor (a b : Word) : rdivStep (a ^^^ b) = rdivStep a ^^^ rdivStep b := by
  unfold rdivStep
  rw [BitVec.getLsbD_xor, BitVec.ushiftRight_xor_distrib]
  cases a.getLsbD 0 <;> cases b.getLsbD 0
  · simp
  · simp [BitVec.xor_assoc]
  · simp only [Bool.xor_false, if_true, Bool.false_eq_true, if_false]
    ac_rfl
  · simp only [Bool.xor_self, if_true, Bool.false_eq_true, if_false]
    rw [show (a >>> 1 ^^^ Config.poly) ^^^ (b >>> 1 ^^^ Config.poly) = a >>> 1 ^^^ b >>> 1 ^^^ (Config.poly ^^^ Config.poly)
      by ac_rfl, BitVec.xor_self, BitVec.xor_zero]

/-- Bit steps on a word whose low bits are 0 only shift. -/
theorem rdivStep_iterate_of_low_zero (k : Nat) (c : Word) (h : ∀ i < k, c.getLsbD i = false) :
    rdivStep^[k] c = c >>> k := by
  induction k with
  | zero => simp
  | succ k ih =>
    rw [Function.iterate_succ_apply', ih fun i hi => h i (by omega), BitVec.shiftRight_add]
    simp [rdivStep, h k (by omega)]

/-- `rdiv8` is linear over xor (40_table_builder.md R83). -/
theorem rdiv8_xor (a b : Word) : rdiv8 (a ^^^ b) = rdiv8 a ^^^ rdiv8 b :=
  Function.Semiconj₂.iterate rdivStep_xor 8 a b

theorem rdiv8_iterate_xor (k : Nat) (a b : Word) : rdiv8^[k] (a ^^^ b) = rdiv8^[k] a ^^^ rdiv8^[k] b :=
  Function.Semiconj₂.iterate rdiv8_xor k a b

/-- Dividing eight bits that are 0 only shifts. -/
theorem rdiv8_of_lane_zero {c : Word} (h : lane c 0 = 0#8) : rdiv8 c = c >>> 8 := by
  refine rdivStep_iterate_of_low_zero 8 c fun i hi => ?_
  have hb := congrArg (fun b : Byte => b.getLsbD i) h
  simpa [lane, hi] using hb

theorem word_eq_low_xor_high (c : Word) : c = zext32 (lane c 0) ^^^ ((c >>> 8) <<< 8) := by
  ext i hi
  by_cases h8 : i < 8
  · simp [zext32, lane, h8, hi]
  · simp [zext32, lane, h8, show 8 + (i - 8) = i by omega, hi]

/-- The identity behind every table-driven checksum: the division of a word is that of its low byte, xored with what is left of
the word (40_table_builder.md R84). -/
theorem rdiv8_eq_low_xor_high (c : Word) : rdiv8 c = rdiv8 (zext32 (lane c 0)) ^^^ (c >>> 8) := by
  have hlane : lane ((c >>> 8) <<< 8) 0 = 0#8 := by
    ext i hi
    simp [lane, hi]
  have hshift : ((c >>> 8) <<< 8) >>> 8 = c >>> 8 := by
    ext i hi
    simpa using BitVec.lt_of_getLsbD
  calc rdiv8 c = rdiv8 (zext32 (lane c 0) ^^^ ((c >>> 8) <<< 8)) := congrArg rdiv8 (word_eq_low_xor_high c)
    _ = rdiv8 (zext32 (lane c 0)) ^^^ (c >>> 8) := by rw [rdiv8_xor, rdiv8_of_lane_zero hlane, hshift]

/-! ### The built table -/

/-- Entry n of level L is n divided L + 1 times (40_table_builder.md R81, R82, R84). -/
theorem builtLevel_entry (l : Nat) (n : Byte) : Level.entry (builtLevel l) n = rdiv8^[l + 1] (zext32 n) := by
  induction l with
  | zero => simp [builtLevel, levelZero]
  | succ l ih => rw [builtLevel_succ_entry, ← rdiv8_eq_low_xor_high, ih, ← Function.iterate_succ_apply' rdiv8]

theorem builtTable_entry_eq_rdiv8_iterate (l : BitVec 3) (n : Byte) :
    builtTable.entry l n = rdiv8^[l.toNat + 1] (zext32 n) := by
  rw [builtTable_entry, builtLevel_entry]

theorem zext32_shiftRight_eight (b : Byte) : zext32 b >>> 8 = 0#32 := by
  ext i hi
  simp [zext32]

/-- The byte step is the division of the accumulator with the byte xored in, with no table. -/
theorem step8_builtTable (c : Word) (b : Byte) : step8 builtTable c b = rdiv8 (c ^^^ zext32 b) := by
  rw [step8, builtTable_entry_zero, rdiv8_eq_low_xor_high (c ^^^ zext32 b), BitVec.ushiftRight_xor_distrib,
    zext32_shiftRight_eight, BitVec.xor_zero]

theorem rawUpdate_eq_bitwiseUpdate (c : Word) (bytes : List Byte) : rawUpdate c bytes = bitwiseUpdate c bytes := by
  have hstep : step8 builtTable = fun c b => rdiv8 (c ^^^ zext32 b) := funext₂ step8_builtTable
  rw [rawUpdate, hstep, bitwiseUpdate]

/-! ### The word fold -/

/-- One more division of a word: its low byte leaves, the rest moves down a lane. -/
theorem rdiv8_iterate_succ (k : Nat) (c : Word) :
    rdiv8^[k + 1] c = rdiv8^[k + 1] (zext32 (lane c 0)) ^^^ rdiv8^[k] (c >>> 8) := by
  rw [Function.iterate_succ_apply, Function.iterate_succ_apply, rdiv8_eq_low_xor_high c, rdiv8_iterate_xor]

theorem lane_shiftRight_eight (c : Word) (k : Nat) : lane (c >>> 8) k = lane c (k + 1) := by
  ext i hi
  simp [lane, show 8 + (8 * k + i) = 8 * (k + 1) + i by omega]

/-- The word fold is four divisions of the accumulator with the word xored in. -/
theorem fold32_builtTable (c w : Word) : fold32 builtTable c w = rdiv8^[4] (c ^^^ w) := by
  have hempty : ∀ x : Word, x >>> 8 >>> 8 >>> 8 >>> 8 = 0#32 := fun x => by
    rw [← BitVec.shiftRight_add, ← BitVec.shiftRight_add, ← BitVec.shiftRight_add]
    exact BitVec.ushiftRight_eq_zero (Nat.le_refl 32)
  rw [rdiv8_iterate_succ 3, rdiv8_iterate_succ 2, rdiv8_iterate_succ 1, rdiv8_iterate_succ 0]
  simp only [lane_shiftRight_eight, hempty, Function.iterate_zero, id, BitVec.xor_zero, fold32,
    builtTable_entry_eq_rdiv8_iterate, ← BitVec.xor_assoc, BitVec.toNat_ofNat, Nat.reducePow, Nat.reduceMod, Nat.reduceAdd]

/-! ### Bytes of a little-endian word -/

theorem le32_shiftRight (b0 b1 b2 b3 : Byte) : le32 b0 b1 b2 b3 >>> 8 = le32 b1 b2 b3 0#8 := by
  ext i hi
  simp only [le32, zext32, BitVec.getElem_ushiftRight, BitVec.getElem_or, BitVec.getLsbD_or, BitVec.getLsbD_shiftLeft,
    BitVec.getElem_shiftLeft, BitVec.getLsbD_setWidth, BitVec.getElem_setWidth]
  grind

theorem lane_zero_le32 (b0 b1 b2 b3 : Byte) : lane (le32 b0 b1 b2 b3) 0 = b0 := by
  ext i hi
  simp [le32, zext32, lane, hi, show i < 32 by omega, show i < 16 by omega, show i < 24 by omega]

/-- The first byte of a little-endian word is divided in, and the other three are left. -/
theorem rdiv8_xor_le32 (c : Word) (b0 b1 b2 b3 : Byte) :
    rdiv8 (c ^^^ le32 b0 b1 b2 b3) = rdiv8 (c ^^^ zext32 b0) ^^^ le32 b1 b2 b3 0#8 := by
  rw [rdiv8_xor, rdiv8_xor, rdiv8_eq_low_xor_high (le32 b0 b1 b2 b3), lane_zero_le32, le32_shiftRight, BitVec.xor_assoc]

/-- One word fold is four byte steps in address order (42_quad_engine.md R121). -/
theorem fold32_le32 (c : Word) (b0 b1 b2 b3 : Byte) :
    fold32 builtTable c (le32 b0 b1 b2 b3) = rawUpdate c [b0, b1, b2, b3] := by
  have hempty : le32 0#8 0#8 0#8 0#8 = 0#32 := by decide
  simp only [fold32_builtTable, Function.iterate_succ_apply, Function.iterate_zero, id, rdiv8_xor_le32, hempty,
    BitVec.xor_zero, rawUpdate, List.foldl, step8_builtTable]

end Sys2Proof.Machine
end

section
/-! PROOF. The two engines as functions of the buffer: how far a loop of admitted turns comes, the turns of the four phases
of CRCQ, and the state each command leaves when its reads are admitted (41_bytewise_engine.md R101, 42_quad_engine.md R122
to R124). -/

namespace Sys2Proof.Machine

/-! ### Addresses, buffers and reads in parts -/

@[simp] theorem bufAddr_zero (a : Word) : bufAddr a 0 = a := by simp [bufAddr]

theorem bufAddr_bufAddr (a : Word) (m n : Nat) : bufAddr (bufAddr a m) n = bufAddr a (m + n) := by
  rw [bufAddr, bufAddr, bufAddr, BitVec.ofNat_add, BitVec.add_assoc]

theorem bytesAt_add (s : State) (a : Word) (m n : Nat) :
    bytesAt s a (m + n) = bytesAt s a m ++ bytesAt s (bufAddr a m) n := by
  simp [bytesAt, List.range_add, bufAddr_bufAddr, Function.comp_def]

@[simp] theorem bytesAt_ensureTable (s : State) (a : Word) (n : Nat) : bytesAt (ensureTable s) a n = bytesAt s a n := by
  simp [bytesAt]

theorem rawUpdate_append (c : Word) (xs ys : List Byte) : rawUpdate c (xs ++ ys) = rawUpdate (rawUpdate c xs) ys :=
  List.foldl_append

/-- `n` in `MemRead(addr, n)` (20_memory.md R42). -/
def readBytes : ReadWidth → Nat
  | .byte => 1
  | .word => 4

/-- `n` reads of one width in a row, the first at `a`. -/
def readsFrom (w : ReadWidth) (a : Word) (n : Nat) : List ReadReq :=
  (List.range n).map fun j => ⟨bufAddr a (readBytes w * j), w⟩

theorem readsFrom_succ (w : ReadWidth) (a : Word) (n : Nat) :
    readsFrom w a (n + 1) = ⟨a, w⟩ :: readsFrom w (bufAddr a (readBytes w)) n := by
  simp [readsFrom, List.range_succ_eq_map, bufAddr_bufAddr, Function.comp_def, Nat.mul_add, Nat.add_comm]

theorem crcReads_eq_readsFrom (a : Word) (n : Nat) : crcReads a n = readsFrom .byte a n := by
  simp [crcReads, readsFrom, readBytes]

/-- The three runs of reads of CRCQ (42_quad_engine.md R124). -/
theorem crcqReads_eq_readsFrom (a : Word) (n : Nat) :
    crcqReads a n = readsFrom .byte a (alignLen a n) ++ readsFrom .word (bufAddr a (alignLen a n)) (wordCount a n) ++
      readsFrom .byte (bufAddr a (alignLen a n + 4 * wordCount a n)) (trailLen a n) := by
  simp [crcqReads, readsFrom, readBytes, bufAddr_bufAddr]

theorem allAdmitted_cons {p : Platform} {q : ReadReq} {qs : List ReadReq} :
    allAdmitted p (q :: qs) ↔ memAdmits p q = true ∧ allAdmitted p qs := List.forall_mem_cons

theorem allAdmitted_append {p : Platform} {qs rs : List ReadReq} :
    allAdmitted p (qs ++ rs) ↔ allAdmitted p qs ∧ allAdmitted p rs := List.forall_mem_append

/-! ### Loops of admitted turns -/

/-- The loop body that reads at a width: the byte turn or the word turn. -/
def turn (s : State) : ReadWidth → Cursor → Progress
  | .byte => byteTurn s
  | .word => wordTurn s

/-- The cursor after the next `n` bytes of the buffer, folded with the built table and read by `reads`. -/
def Cursor.advance (cur : Cursor) (s : State) (n : Nat) (reads : List ReadReq) : Cursor where
  c := rawUpdate cur.c (bytesAt s cur.p n)
  p := bufAddr cur.p n
  r := cur.r - BitVec.ofNat 32 n
  reads := cur.reads ++ reads

@[simp] theorem Cursor.advance_p (cur : Cursor) (s : State) (n : Nat) (reads : List ReadReq) :
    (cur.advance s n reads).p = bufAddr cur.p n := rfl

theorem Cursor.advance_zero (cur : Cursor) (s : State) : cur.advance s 0 [] = cur := by
  simp [Cursor.advance, bytesAt, rawUpdate]

theorem Cursor.advance_advance (cur : Cursor) (s : State) (m n : Nat) (qs rs : List ReadReq) :
    (cur.advance s m qs).advance s n rs = cur.advance s (m + n) (qs ++ rs) := by
  simp only [Cursor.advance, bytesAt_add, rawUpdate_append, bufAddr_bufAddr, List.append_assoc, BitVec.ofNat_add,
    BitVec.sub_sub]

/-- An admitted turn advances the cursor by the bytes it reads. -/
theorem turn_of_admits {s : State} {w : ReadWidth} {cur : Cursor} (ht : s.table = builtTable)
    (h : memAdmits s.platform ⟨cur.p, w⟩ = true) : turn s w cur = .on (cur.advance s (readBytes w) [⟨cur.p, w⟩]) := by
  cases w with
  | byte => simp [turn, byteTurn_of_admits h, ht, Cursor.advance, readBytes, bytesAt, rawUpdate, bufAddr]
  | word =>
    simp [turn, wordTurn_of_admits h, ht, Cursor.advance, readBytes, bytesAt, fold32_le32, bufAddr,
      List.range_succ]

/-- A loop whose reads are all admitted advances the cursor by the bytes it reads. -/
theorem repeatTimes_turn_of_admitted {s : State} {w : ReadWidth} {a : Word} {k : Nat} {cur : Cursor}
    (ht : s.table = builtTable) (h : allAdmitted s.platform (readsFrom w a k)) (hp : cur.p = a) :
    repeatTimes (turn s w) k cur = .on (cur.advance s (readBytes w * k) (readsFrom w a k)) := by
  induction k generalizing cur a with
  | zero => simp [readsFrom, Cursor.advance_zero]
  | succ k ih =>
    subst hp
    rw [readsFrom_succ] at h ⊢
    obtain ⟨hfirst, hrest⟩ := allAdmitted_cons.mp h
    rw [repeatTimes_succ, turn_of_admits ht hfirst, andThen_on, ih hrest (Cursor.advance_p ..), Cursor.advance_advance,
      Nat.mul_succ, Nat.add_comm, List.singleton_append]

theorem repeatTimes_byteTurn_of_admitted {s : State} {a : Word} {k : Nat} {cur : Cursor} (ht : s.table = builtTable)
    (h : allAdmitted s.platform (readsFrom .byte a k)) (hp : cur.p = a) :
    repeatTimes (byteTurn s) k cur = .on (cur.advance s k (readsFrom .byte a k)) := by
  simpa [turn, readBytes] using repeatTimes_turn_of_admitted ht h hp

theorem repeatTimes_wordTurn_of_admitted {s : State} {a : Word} {k : Nat} {cur : Cursor} (ht : s.table = builtTable)
    (h : allAdmitted s.platform (readsFrom .word a k)) (hp : cur.p = a) :
    repeatTimes (wordTurn s) k cur = .on (cur.advance s (4 * k) (readsFrom .word a k)) :=
  repeatTimes_turn_of_admitted ht h hp

/-! ### The turns of the phases of CRCQ, stuck reads included -/

/-- However a turn ends, a cursor that goes on has moved by the bytes of the read. -/
theorem turn_meets_moved (s : State) (w : ReadWidth) (cur : Cursor) :
    (turn s w cur).Meets
      (fun next => next.p = bufAddr cur.p (readBytes w) ∧ next.r = cur.r - BitVec.ofNat 32 (readBytes w))
      fun _ _ => True := by
  cases w with
  | byte => exact (byteTurn_meets s cur).mono (fun _ ⟨_, _, hp, hr, _⟩ => ⟨hp, hr⟩) fun _ _ _ => trivial
  | word => exact (wordTurn_meets s cur).mono (fun _ ⟨_, _, hp, hr, _⟩ => ⟨hp, hr⟩) fun _ _ _ => trivial

theorem toNat_sub_ofNat {x : Word} {m : Nat} (h : m ≤ x.toNat) : (x - BitVec.ofNat 32 m).toNat = x.toNat - m := by
  have hm : m % 2 ^ 32 = m := Nat.mod_eq_of_lt (by omega)
  rw [BitVec.toNat_sub_of_le (by rw [BitVec.le_def, BitVec.toNat_ofNat, hm]; exact h), BitVec.toNat_ofNat, hm]

/-- However a loop of turns ends, a cursor that goes on has counted down the bytes of its reads. -/
theorem repeatTimes_turn_meets_count (s : State) (w : ReadWidth) (k : Nat) (cur : Cursor)
    (h : readBytes w * k ≤ cur.r.toNat) :
    (repeatTimes (turn s w) k cur).Meets (fun next => next.r.toNat = cur.r.toNat - readBytes w * k) fun _ _ => True := by
  induction k generalizing cur with
  | zero => rfl
  | succ k ih =>
    rw [repeatTimes_succ]
    refine (turn_meets_moved s w cur).andThen fun next ⟨_, hr⟩ => ?_
    rw [Nat.mul_succ] at h ⊢
    have hnext : next.r.toNat = cur.r.toNat - readBytes w := by
      rw [hr]
      exact toNat_sub_ofNat (by omega)
    refine (ih next (by omega)).mono (fun last hl => ?_) fun _ _ _ => trivial
    omega

/-- Step 2 of CRCQ makes the turns of R123. -/
theorem alignPhase_eq_repeatTimes (s : State) (cur : Cursor) (h : cur.r.toNat ≤ s.len.toNat) :
    alignPhase s cur = repeatTimes (byteTurn s) (alignLen cur.p cur.r.toNat) cur := by
  refine whileDo_eq_repeatTimes (fun cur => alignLen cur.p cur.r.toNat) (fun cur => ?_) (fun cur hpos => ?_) _ cur ?_
  · exact decide_eq_decide.mpr (by unfold alignLen; omega)
  · refine (turn_meets_moved s .byte cur).mono (fun next ⟨hp, hr⟩ => ?_) fun _ _ _ => trivial
    simp only [alignLen, hp, hr, bufAddr, readBytes] at hpos ⊢
    bv_omega
  · simp only [alignLen]
    omega

/-- Step 3 of CRCQ makes a turn for each 32 bytes. -/
theorem bulkPhase_eq_repeatTimes (s : State) (cur : Cursor) (h : cur.r.toNat ≤ s.len.toNat) :
    bulkPhase s cur = repeatTimes (repeatTimes (wordTurn s) 8) (cur.r.toNat / 32) cur := by
  refine whileDo_eq_repeatTimes (fun cur => cur.r.toNat / 32) (fun cur => ?_) (fun cur hpos => ?_) _ cur (by omega)
  · exact decide_eq_decide.mpr (by omega)
  · have h8 := repeatTimes_turn_meets_count s .word 8 cur
    simp only [readBytes] at h8
    exact (h8 (by omega)).mono (fun _ hr => by omega) fun _ _ _ => trivial

/-- Step 4 of CRCQ makes a turn for each word. -/
theorem wordPhase_eq_repeatTimes (s : State) (cur : Cursor) (h : cur.r.toNat ≤ s.len.toNat) :
    wordPhase s cur = repeatTimes (wordTurn s) (cur.r.toNat / 4) cur := by
  refine whileDo_eq_repeatTimes (fun cur => cur.r.toNat / 4) (fun cur => ?_) (fun cur hpos => ?_) _ cur (by omega)
  · exact decide_eq_decide.mpr (by omega)
  · refine (turn_meets_moved s .word cur).mono (fun next ⟨_, hr⟩ => ?_) fun _ _ _ => trivial
    simp only [hr, readBytes]
    bv_omega

/-- Step 5 of CRCQ makes a turn for each byte. -/
theorem trailPhase_eq_repeatTimes (s : State) (cur : Cursor) (h : cur.r.toNat ≤ s.len.toNat) :
    trailPhase s cur = repeatTimes (byteTurn s) cur.r.toNat cur := by
  refine whileDo_eq_repeatTimes (fun cur => cur.r.toNat) (fun cur => rfl) (fun cur hpos => ?_) _ cur h
  refine (turn_meets_moved s .byte cur).mono (fun next ⟨_, hr⟩ => ?_) fun _ _ _ => trivial
  simp only [hr, readBytes]
  bv_omega

theorem alignTurns_meets (s : State) (cur : Cursor) :
    (repeatTimes (byteTurn s) (alignLen cur.p cur.r.toNat) cur).Meets
      (fun next => next.r.toNat = cur.r.toNat - alignLen cur.p cur.r.toNat) fun _ _ => True := by
  have h := repeatTimes_turn_meets_count s .byte (alignLen cur.p cur.r.toNat) cur
  simp only [readBytes, Nat.one_mul] at h
  exact h (Nat.min_le_left _ _)

theorem bulkTurns_meets (s : State) (cur : Cursor) :
    (repeatTimes (repeatTimes (wordTurn s) 8) (cur.r.toNat / 32) cur).Meets
      (fun next => next.r.toNat = cur.r.toNat % 32) fun _ _ => True := by
  rw [repeatTimes_mul]
  have h := repeatTimes_turn_meets_count s .word (8 * (cur.r.toNat / 32)) cur
  simp only [readBytes] at h
  exact (h (by omega)).mono (fun _ hr => by omega) fun _ _ _ => trivial

theorem wordTurns_meets (s : State) (cur : Cursor) :
    (repeatTimes (wordTurn s) (cur.r.toNat / 4) cur).Meets
      (fun next => next.r.toNat = cur.r.toNat % 4) fun _ _ => True := by
  have h := repeatTimes_turn_meets_count s .word (cur.r.toNat / 4) cur
  simp only [readBytes] at h
  exact (h (by omega)).mono (fun _ hr => by omega) fun _ _ _ => trivial

/-- LEN in the parts of R123. -/
theorem alignLen_add_wordCount_add_trailLen (a : Word) (n : Nat) :
    alignLen a n + 4 * wordCount a n + trailLen a n = n := by
  have : alignLen a n ≤ n := Nat.min_le_left _ _
  unfold wordCount bulkTurns singleWords trailLen
  omega

/-- The four phases of CRCQ make the turns of R123, in every state. -/
theorem quadWalk_eq_repeatTimes (s : State) :
    quadWalk s = (((repeatTimes (byteTurn s) (alignLen s.addr s.len.toNat) (startCursor s)).andThen
      (repeatTimes (repeatTimes (wordTurn s) 8) (bulkTurns s.addr s.len.toNat))).andThen
      (repeatTimes (wordTurn s) (singleWords s.addr s.len.toNat))).andThen
      (repeatTimes (byteTurn s) (trailLen s.addr s.len.toNat)) := by
  generalize hn : s.len.toNat = n
  have hstart : (startCursor s).r.toNat = n := hn
  have halign : alignLen s.addr n ≤ n := Nat.min_le_left _ _
  have align := alignTurns_meets s (startCursor s)
  rw [hstart, show (startCursor s).p = s.addr from rfl] at align
  have bulk := align.andThen fun cur hr => hr ▸ bulkTurns_meets s cur
  have words := bulk.andThen fun cur hr => hr ▸ wordTurns_meets s cur
  have hrest : (n - alignLen s.addr n) % 32 % 4 = trailLen s.addr n := Nat.mod_mod_of_dvd _ (by decide)
  unfold quadWalk
  rw [alignPhase_eq_repeatTimes s _ (by omega), hstart, show (startCursor s).p = s.addr from rfl,
    andThen_congr align fun cur hr => by rw [bulkPhase_eq_repeatTimes s cur (by omega), hr],
    andThen_congr bulk fun cur hr => by rw [wordPhase_eq_repeatTimes s cur (by omega), hr],
    andThen_congr words fun cur hr => by rw [trailPhase_eq_repeatTimes s cur (by omega), hr, hrest]]
  rfl

/-- The bulk phase and the single-word phase together are one loop of word turns. -/
theorem quadWalk_eq_three_loops (s : State) :
    quadWalk s = ((repeatTimes (byteTurn s) (alignLen s.addr s.len.toNat) (startCursor s)).andThen
      (repeatTimes (wordTurn s) (wordCount s.addr s.len.toNat))).andThen
      (repeatTimes (byteTurn s) (trailLen s.addr s.len.toNat)) := by
  rw [quadWalk_eq_repeatTimes, andThen_assoc (repeatTimes _ _ _)]
  congr 2
  funext cur
  rw [repeatTimes_mul, wordCount, repeatTimes_add]

/-! ### The commands when their reads are admitted -/

theorem exec_crc (s : State) : exec .crc s = .next (finishChecksum (ensureTable s) (byteWalk (ensureTable s))) := rfl

theorem exec_crcq (s : State) : exec .crcq s = .next (finishChecksum (ensureTable s) (quadWalk (ensureTable s))) := rfl

/-- The state a checksum command leaves when it completes with the reads `reads`. -/
def checksumDone (s : State) (reads : List ReadReq) : State :=
  { s with
    table := builtTable
    tvalid := true
    result := crcOf s.seed (buffer s)
    readLog := s.readLog ++ reads }

theorem ensureTable_eq {s : State} (h : TableValid s) : ensureTable s = { s with table := builtTable, tvalid := true } := by
  unfold ensureTable
  split
  case isTrue ht => rw [← h ht, ← ht]
  case isFalse => rfl

theorem finishChecksum_advance {s : State} (h : TableValid s) (reads : List ReadReq) :
    finishChecksum (ensureTable s) (.on ((startCursor (ensureTable s)).advance (ensureTable s) s.len.toNat reads)) =
      checksumDone s reads := by
  rw [finishChecksum_on, ensureTable_readLog]
  simp only [Cursor.advance, startCursor, bytesAt_ensureTable, ensureTable_seed, ensureTable_addr, List.nil_append]
  rw [ensureTable_eq h]
  rfl

theorem byteWalk_of_admitted {s : State} (ht : s.table = builtTable)
    (hr : allAdmitted s.platform (crcReads s.addr s.len.toNat)) :
    byteWalk s = .on ((startCursor s).advance s s.len.toNat (crcReads s.addr s.len.toNat)) := by
  rw [crcReads_eq_readsFrom] at hr ⊢
  exact repeatTimes_byteTurn_of_admitted ht hr rfl

theorem quadWalk_of_admitted {s : State} (ht : s.table = builtTable)
    (hr : allAdmitted s.platform (crcqReads s.addr s.len.toNat)) :
    quadWalk s = .on ((startCursor s).advance s s.len.toNat (crcqReads s.addr s.len.toNat)) := by
  have hlen := alignLen_add_wordCount_add_trailLen s.addr s.len.toNat
  rw [crcqReads_eq_readsFrom] at hr ⊢
  obtain ⟨hrw, htrail⟩ := allAdmitted_append.mp hr
  obtain ⟨halign, hwords⟩ := allAdmitted_append.mp hrw
  rw [quadWalk_eq_three_loops, repeatTimes_byteTurn_of_admitted ht halign rfl, andThen_on,
    repeatTimes_wordTurn_of_admitted ht hwords (Cursor.advance_p ..), Cursor.advance_advance, andThen_on,
    repeatTimes_byteTurn_of_admitted ht htrail (Cursor.advance_p ..), Cursor.advance_advance, hlen]

/-- CRC with all its reads admitted completes with the checksum of the buffer (41_bytewise_engine.md R101, R102). -/
theorem exec_crc_of_admitted {s : State} (h : TableValid s)
    (hr : allAdmitted s.platform (crcReads s.addr s.len.toNat)) :
    exec .crc s = .next (checksumDone s (crcReads s.addr s.len.toNat)) := by
  have hwalk := byteWalk_of_admitted (s := ensureTable s) (ensureTable_table s h) (by simpa using hr)
  rw [exec_crc, hwalk, ensureTable_addr, ensureTable_len, finishChecksum_advance h]

/-- CRCQ with all its reads admitted completes with the checksum of the buffer (42_quad_engine.md R122, R124). -/
theorem exec_crcq_of_admitted {s : State} (h : TableValid s)
    (hr : allAdmitted s.platform (crcqReads s.addr s.len.toNat)) :
    exec .crcq s = .next (checksumDone s (crcqReads s.addr s.len.toNat)) := by
  have hwalk := quadWalk_of_admitted (s := ensureTable s) (ensureTable_table s h) (by simpa using hr)
  rw [exec_crcq, hwalk, ensureTable_addr, ensureTable_len, finishChecksum_advance h]

/-- A checksum command with all its reads admitted completes; the two commands differ in their reads only. -/
theorem exec_checksum_of_admitted {i : Instr} {s : State} (hi : i = .crc ∨ i = .crcq) (h : TableValid s)
    (hr : allAdmitted s.platform (commandReads i s.addr s.len.toNat)) :
    exec i s = .next (checksumDone s (commandReads i s.addr s.len.toNat)) := by
  rcases hi with rfl | rfl
  · exact exec_crc_of_admitted h hr
  · exact exec_crcq_of_admitted h hr

end Sys2Proof.Machine
end

section
/-! PROOF. The statement of 00_scope.md R2. -/

namespace Sys2Proof.Machine

theorem crcOf_eq_bitwise (seed : Word) (bytes : List Byte) :
    crcOf seed bytes = complement (bitwiseUpdate (complement seed) bytes) := by
  rw [crcOf, rawUpdate_eq_bitwiseUpdate]

/-- Settles O13: `rdiv8` is linear over xor, so a table step is a division; both engines write `crcOf` of the buffer, which
is the fold of those divisions. -/
theorem checksumIsPolynomialDivision : Obligations.ChecksumIsPolynomialDivision := by
  unfold Obligations.ChecksumIsPolynomialDivision
  refine ⟨crcOf_eq_bitwise, fun i s hi h hr => ⟨_, exec_checksum_of_admitted hi h hr, ?_⟩⟩
  exact crcOf_eq_bitwise s.seed (buffer s)

end Sys2Proof.Machine
end

section
/-! PROOF. What a command does to the state: every command answers the state `afterCommand`, field by field, and the reads it
makes are its reads in order, up to the first that is not admitted (10_state.md R36, 20_memory.md R41, R47, R48). -/

namespace Sys2Proof.Machine

/-! ### The state after a command -/

/-- The state a command leaves before its window closes, stuck reads included. -/
def afterCommand (i : Instr) (s : State) : State :=
  match i with
  | .build => buildTable s
  | .crc => finishChecksum (ensureTable s) (byteWalk (ensureTable s))
  | .crcq => finishChecksum (ensureTable s) (quadWalk (ensureTable s))
  | .rdtab => { ensureTable s with
      result := (ensureTable s).table.entry (tselLevel (ensureTable s)) (tselIndex (ensureTable s)) }
  | .rev32 => { s with result := rev32 s.opnd }

/-- Every command answers a next state, whatever its operands (60_exceptions.md R160). -/
theorem exec_eq_afterCommand (i : Instr) (s : State) : exec i s = .next (afterCommand i s) := by cases i <;> rfl

section Frame
variable (i : Instr) (s : State)

@[simp] theorem afterCommand_platform : (afterCommand i s).platform = s.platform := by cases i <;> simp [afterCommand]
@[simp] theorem afterCommand_illcmd : (afterCommand i s).illcmd = s.illcmd := by cases i <;> simp [afterCommand]
@[simp] theorem afterCommand_seed : (afterCommand i s).seed = s.seed := by cases i <;> simp [afterCommand]
@[simp] theorem afterCommand_addr : (afterCommand i s).addr = s.addr := by cases i <;> simp [afterCommand]
@[simp] theorem afterCommand_len : (afterCommand i s).len = s.len := by cases i <;> simp [afterCommand]
@[simp] theorem afterCommand_tsel : (afterCommand i s).tsel = s.tsel := by cases i <;> simp [afterCommand]
@[simp] theorem afterCommand_opnd : (afterCommand i s).opnd = s.opnd := by cases i <;> simp [afterCommand]
@[simp] theorem afterCommand_mem : (afterCommand i s).mem = s.mem := by cases i <;> simp [afterCommand]
@[simp] theorem afterCommand_racing : (afterCommand i s).racing = s.racing := by cases i <;> simp [afterCommand]
@[simp] theorem afterCommand_pending : (afterCommand i s).pending = s.pending := by cases i <;> simp [afterCommand]
@[simp] theorem afterCommand_held : (afterCommand i s).held = s.held := by cases i <;> simp [afterCommand]
@[simp] theorem afterCommand_observed : (afterCommand i s).observed = s.observed := by cases i <;> simp [afterCommand]
@[simp] theorem afterCommand_draws : (afterCommand i s).draws = s.draws := by cases i <;> simp [afterCommand]

end Frame

/-- The table store and TVALID after a command: REV32 does not touch them, every other command ensures the table, and BUILD
builds it whatever TVALID says (40_table_builder.md R85, R86, 43_bit_reversal.md R141). -/
theorem afterCommand_table_cases (i : Instr) (s : State) :
    (i = .rev32 ∧ (afterCommand i s).table = s.table ∧ (afterCommand i s).tvalid = s.tvalid) ∨
    (i = .build ∧ (afterCommand i s).table = builtTable ∧ (afterCommand i s).tvalid = true) ∨
    (i ≠ .rev32 ∧ i ≠ .build ∧ (afterCommand i s).table = (ensureTable s).table ∧
      (afterCommand i s).tvalid = true) := by
  cases i <;> simp [afterCommand]

/-- No command clears TVALID (10_state.md R23). -/
theorem afterCommand_tvalid_of_tvalid (i : Instr) {s : State} (h : s.tvalid = true) : (afterCommand i s).tvalid = true := by
  rcases afterCommand_table_cases i s with ⟨_, _, hv⟩ | ⟨_, _, hv⟩ | ⟨_, _, _, hv⟩
  · rw [hv, h]
  · exact hv
  · exact hv

/-- A command other than BUILD leaves a table that is there alone (40_table_builder.md R85). -/
theorem afterCommand_table_of_tvalid {i : Instr} {s : State} (hi : i ≠ .build) (h : s.tvalid = true) :
    (afterCommand i s).table = s.table := by
  have hensure : ensureTable s = s := by simp [ensureTable, h]
  rcases afterCommand_table_cases i s with ⟨_, ht, _⟩ | ⟨hb, _⟩ | ⟨_, _, ht, _⟩
  · exact ht
  · exact absurd hb hi
  · rw [ht, hensure]

/-- Every command keeps TVALID true to the table store (10_state.md R23). -/
theorem tableValid_afterCommand (i : Instr) {s : State} (h : TableValid s) : TableValid (afterCommand i s) := by
  rcases afterCommand_table_cases i s with ⟨_, ht, hv⟩ | ⟨_, ht, _⟩ | ⟨_, _, ht, _⟩
  · exact fun hvalid => ht.trans (h (hv ▸ hvalid))
  · exact fun _ => ht
  · exact fun _ => ht.trans (ensureTable_table s h)

/-! ### The reads a walk makes -/

/-- From the cursor `cur` the walk makes the reads `plan` in order and moves on by `n` bytes, or it is stuck on the first of them
that the platform refuses (20_memory.md R47, R48). -/
def Progress.Follows (p : Platform) (cur : Cursor) (n : Nat) (plan : List ReadReq) (g : Progress) : Prop :=
  g.Meets (fun next => next.p = bufAddr cur.p n ∧ next.reads = cur.reads ++ plan ∧ allAdmitted p plan)
    fun last q => ∃ before after, plan = before ++ q :: after ∧ last.reads = cur.reads ++ before ∧
      allAdmitted p before ∧ memAdmits p q = false

/-- Two walks in a row make the reads of the first and then those of the second. -/
theorem Progress.Follows.andThen {p : Platform} {cur : Cursor} {m n : Nat} {qs rs : List ReadReq} {g : Progress}
    {f : Cursor → Progress} (hg : g.Follows p cur m qs)
    (hf : ∀ next, next.p = bufAddr cur.p m → (f next).Follows p next n rs) :
    (g.andThen f).Follows p cur (m + n) (qs ++ rs) := by
  cases g with
  | stuck last q =>
    obtain ⟨before, after, rfl, hreads, hbefore, hq⟩ := hg
    exact ⟨before, after ++ rs, by simp, hreads, hbefore, hq⟩
  | on next =>
    obtain ⟨hp, hreads, hqs⟩ := hg
    refine (hf next hp).mono ?_ ?_
    · rintro last ⟨hlast, hmore, hrs⟩
      exact ⟨by rw [hlast, hp, bufAddr_bufAddr], by rw [hmore, hreads, List.append_assoc],
        allAdmitted_append.mpr ⟨hqs, hrs⟩⟩
    · rintro last q ⟨before, after, rfl, hmore, hbefore, hq⟩
      exact ⟨qs ++ before, after, by simp, by rw [hmore, hreads, List.append_assoc],
        allAdmitted_append.mpr ⟨hqs, hbefore⟩, hq⟩

/-- A turn makes its one read and moves on, or is stuck on that read. -/
theorem turn_meets_read (s : State) (w : ReadWidth) (cur : Cursor) :
    (turn s w cur).Meets
      (fun next => memAdmits s.platform ⟨cur.p, w⟩ = true ∧ next.p = bufAddr cur.p (readBytes w) ∧
        next.reads = cur.reads ++ [⟨cur.p, w⟩])
      fun last q => last = cur ∧ q = ⟨cur.p, w⟩ ∧ memAdmits s.platform q = false := by
  cases w with
  | byte => exact (byteTurn_meets s cur).mono (fun _ ⟨hq, _, hp, _, hreads⟩ => ⟨hq, hp, hreads⟩) fun _ _ h => h
  | word => exact (wordTurn_meets s cur).mono (fun _ ⟨hq, _, hp, _, hreads⟩ => ⟨hq, hp, hreads⟩) fun _ _ h => h

theorem turn_follows (s : State) (w : ReadWidth) (cur : Cursor) :
    (turn s w cur).Follows s.platform cur (readBytes w) [⟨cur.p, w⟩] := by
  refine (turn_meets_read s w cur).mono ?_ ?_
  · rintro next ⟨hq, hp, hreads⟩
    exact ⟨hp, hreads, List.forall_mem_singleton.mpr hq⟩
  · rintro last q ⟨rfl, rfl, hq⟩
    exact ⟨[], [], rfl, (List.append_nil _).symm, List.forall_mem_nil _, hq⟩

/-- A loop of turns makes its reads one after the other. -/
theorem repeatTimes_turn_follows (s : State) (w : ReadWidth) (k : Nat) (cur : Cursor) :
    (repeatTimes (turn s w) k cur).Follows s.platform cur (readBytes w * k) (readsFrom w cur.p k) := by
  induction k generalizing cur with
  | zero => exact ⟨(bufAddr_zero _).symm, (List.append_nil _).symm, List.forall_mem_nil _⟩
  | succ k ih =>
    rw [repeatTimes_succ, readsFrom_succ, Nat.mul_succ, Nat.add_comm]
    exact (turn_follows s w cur).andThen fun next hp => hp ▸ ih next

/-- CRC makes the reads of 41_bytewise_engine.md R101. -/
theorem byteWalk_follows (s : State) :
    (byteWalk s).Follows s.platform (startCursor s) s.len.toNat (crcReads s.addr s.len.toNat) := by
  have h := repeatTimes_turn_follows s .byte s.len.toNat (startCursor s)
  rw [readBytes, Nat.one_mul] at h
  rw [crcReads_eq_readsFrom]
  exact h

/-- CRCQ makes the reads of 42_quad_engine.md R124. -/
theorem quadWalk_follows (s : State) :
    (quadWalk s).Follows s.platform (startCursor s) s.len.toNat (crcqReads s.addr s.len.toNat) := by
  have align := repeatTimes_turn_follows s .byte (alignLen s.addr s.len.toNat) (startCursor s)
  have words := align.andThen fun next hp => hp ▸ repeatTimes_turn_follows s .word (wordCount s.addr s.len.toNat) next
  have trail := words.andThen fun next hp => hp ▸ repeatTimes_turn_follows s .byte (trailLen s.addr s.len.toNat) next
  simp only [readBytes, Nat.one_mul, alignLen_add_wordCount_add_trailLen] at trail
  rw [quadWalk_eq_three_loops, crcqReads_eq_readsFrom]
  exact trail

/-- The reads of a checksum command, after it: all of them were made, or the command is stuck on the first that is not admitted
(20_memory.md R48; log entry 7). -/
theorem finishChecksum_reads {s : State} {cur : Cursor} {n : Nat} {plan : List ReadReq} {g : Progress}
    (hcur : cur.reads = []) (h : g.Follows s.platform cur n plan) :
    (allAdmitted s.platform plan ∧ (finishChecksum s g).readLog = s.readLog ++ plan ∧
      (finishChecksum s g).stuck = s.stuck ∧ (finishChecksum s g).unfinished = s.unfinished) ∨
    ∃ before q after, plan = before ++ q :: after ∧ allAdmitted s.platform before ∧ memAdmits s.platform q = false ∧
      (finishChecksum s g).readLog = s.readLog ++ before ∧ (finishChecksum s g).stuck = some q ∧
      (finishChecksum s g).unfinished = s.unfinished ++ [q] := by
  cases g with
  | on next =>
    obtain ⟨-, hreads, hplan⟩ := h
    exact .inl ⟨hplan, by simp [finishChecksum_on, hreads, hcur], rfl, rfl⟩
  | stuck last q =>
    obtain ⟨before, after, hplan, hreads, hbefore, hq⟩ := h
    exact .inr ⟨before, q, after, hplan, hbefore, hq, by simp [finishChecksum_stuck, hreads, hcur], rfl, rfl⟩

/-- The reads of a command, after it: all of them were made, or the command is stuck on the first that is not admitted
(20_memory.md R47, R48; log entry 7). -/
theorem afterCommand_reads (i : Instr) (s : State) :
    (allAdmitted s.platform (commandReads i s.addr s.len.toNat) ∧
      (afterCommand i s).readLog = s.readLog ++ commandReads i s.addr s.len.toNat ∧
      (afterCommand i s).stuck = s.stuck ∧ (afterCommand i s).unfinished = s.unfinished) ∨
    ∃ before q after, commandReads i s.addr s.len.toNat = before ++ q :: after ∧ allAdmitted s.platform before ∧
      memAdmits s.platform q = false ∧ (afterCommand i s).readLog = s.readLog ++ before ∧
      (afterCommand i s).stuck = some q ∧ (afterCommand i s).unfinished = s.unfinished ++ [q] := by
  cases i with
  | build | rdtab | rev32 => exact .inl (by simp [afterCommand, commandReads, allAdmitted])
  | crc => simpa [afterCommand, commandReads] using finishChecksum_reads rfl (byteWalk_follows (ensureTable s))
  | crcq => simpa [afterCommand, commandReads] using finishChecksum_reads rfl (quadWalk_follows (ensureTable s))

/-- A command with no read to make adds none and cannot get stuck. -/
theorem afterCommand_of_no_reads {i : Instr} {s : State} (h : commandReads i s.addr s.len.toNat = []) :
    (afterCommand i s).readLog = s.readLog ∧ (afterCommand i s).stuck = s.stuck ∧
      (afterCommand i s).unfinished = s.unfinished := by
  rcases afterCommand_reads i s with ⟨-, hlog, hstuck, hunf⟩ | ⟨before, q, after, hplan, -⟩
  · exact ⟨by rw [hlog, h, List.append_nil], hstuck, hunf⟩
  · simp [h] at hplan

/-! ### Every 4-byte read is aligned -/

/-- Where the alignment phase leaves a word to read, it has brought the cursor to a multiple of 4 (42_quad_engine.md R123). -/
theorem add_alignLen_mod_four {a : Word} {n : Nat} (h : 0 < wordCount a n) : (a.toNat + alignLen a n) % 4 = 0 := by
  have hlen := alignLen_add_wordCount_add_trailLen a n
  have halign : alignLen a n = min n ((4 - a.toNat % 4) % 4) := rfl
  omega

theorem bufAddr_toNat_mod_four (a : Word) (k : Nat) : (bufAddr a k).toNat % 4 = (a.toNat + k) % 4 := by
  rw [bufAddr, BitVec.toNat_add, BitVec.toNat_ofNat]
  omega

/-- The reads a command makes are aligned where they are of 4 bytes (20_memory.md R43). -/
theorem wordAligned_of_mem_commandReads {i : Instr} {a : Word} {n : Nat} {q : ReadReq} (h : q ∈ commandReads i a n) :
    wordAligned q := by
  have byteRead : ∀ {b : Word} {k : Nat}, q ∈ readsFrom .byte b k → wordAligned q := by
    intro b k hq hw
    obtain ⟨j, -, rfl⟩ := List.mem_map.mp hq
    cases hw
  cases i with
  | build | rdtab | rev32 => cases h
  | crc =>
    rw [commandReads, crcReads_eq_readsFrom] at h
    exact byteRead h
  | crcq =>
    rw [commandReads, crcqReads_eq_readsFrom] at h
    rcases List.mem_append.mp h with h | h
    · rcases List.mem_append.mp h with h | h
      · exact byteRead h
      · obtain ⟨j, hj, rfl⟩ := List.mem_map.mp h
        have hwords := add_alignLen_mod_four (a := a) (n := n) (Nat.zero_lt_of_lt (List.mem_range.mp hj))
        intro _
        show (bufAddr (bufAddr a (alignLen a n)) (4 * j)).toNat % 4 = 0
        rw [bufAddr_bufAddr, bufAddr_toNat_mod_four]
        omega
    · exact byteRead h

end Sys2Proof.Machine
end

section
/-! PROOF. The events at the block's boundary: what a step is for a given event, where an access goes, and what an event that is
no reset leaves alone (10_state.md R31, R32, R36, 30_encoding.md R62). -/

namespace Sys2Proof.Machine

/-! ### A step for a given event -/

theorem step_of_pending {s : State} {e : Input} {rest : List Input} (h : s.pending = e :: rest) :
    step s = accept e { s with pending := rest } := by
  simp only [step, nextEvent, h]

/-- A write with no command stuck takes effect where it goes, or is refused there. -/
theorem accept_write {s : State} (hs : s.stuck = none) (a width : Nat) (v : Word) :
    accept (.write a width v) s = writeTarget (target s.platform a width) v s := by
  cases ht : target s.platform a width <;> simp [accept, ht, hs, writeTarget]

/-- A read with no command stuck returns the value of the slot it reaches, if it reaches one. -/
theorem accept_read {s : State} (hs : s.stuck = none) {a width : Nat} {g : Target}
    (ht : target s.platform a width = g) (hg : ∀ why, g ≠ .refused why) :
    accept (.read a width) s = .next { s with observed := s.observed ++ [targetValue s g] } := by
  cases g with
  | refused why => exact absurd rfl (hg why)
  | reg r => simp [accept, ht, hs]
  | reserved => simp [accept, ht, hs]

/-- A host access of any kind that goes nowhere is refused, stuck command or not (log entry 8). -/
theorem accept_of_target_refused {s : State} {e : Input} {a width : Nat} {why : Refusal}
    (he : (∃ v, e = .write a width v) ∨ e = .writeLastRead a width ∨ e = .read a width)
    (ht : target s.platform a width = .refused why) : accept e s = .refused why := by
  rcases he with ⟨v, rfl⟩ | rfl | rfl <;> simp [accept, ht]

theorem target_outside {p : Platform} {a : Nat} (h : a < p.regBase ∨ p.regBase + 64 ≤ a) (width : Nat) :
    target p a width = .refused (.outsideRegisterBlock a) := if_pos h

theorem target_unsupported {p : Platform} {a width : Nat} (hlo : p.regBase ≤ a) (hhi : a < p.regBase + 64)
    (h : width ≠ 32 ∨ (a - p.regBase) % 4 ≠ 0) : target p a width = .refused (.unsupportedAccess a width) := by
  rw [target, if_neg (by omega), if_pos h]

/-- The write is the next event, and no command is stuck. -/
theorem step_write {s : State} (hs : s.stuck = none) {a width : Nat} {v : Word} {rest : List Input}
    (h : s.pending = .write a width v :: rest) :
    step s = writeTarget (target s.platform a width) v { s with pending := rest } :=
  (step_of_pending h).trans (accept_write (s := { s with pending := rest }) hs a width v)

/-- The read is the next event, and no command is stuck. -/
theorem step_read {s : State} (hs : s.stuck = none) {a width : Nat} {g : Target} {rest : List Input}
    (h : s.pending = .read a width :: rest) (ht : target s.platform a width = g) (hg : ∀ why, g ≠ .refused why) :
    step s = .next { s with pending := rest, observed := s.observed ++ [targetValue { s with pending := rest } g] } :=
  (step_of_pending h).trans (accept_read (s := { s with pending := rest }) hs ht hg)

theorem step_write_reg {s : State} (hs : s.stuck = none) (r : Reg) {v : Word} {rest : List Input}
    (h : s.pending = .write (s.platform.regBase + r.offset) 32 v :: rest) :
    step s = writeReg r v { s with pending := rest } := by
  rw [step_write hs h, target_reg, writeTarget]

/-- A write to a reserved slot is ignored (10_state.md R32). -/
theorem step_write_reserved {s : State} (hs : s.stuck = none) {k : Nat} (h9 : 9 ≤ k) (hk : k ≤ 15) {v : Word}
    {rest : List Input} (h : s.pending = .write (s.platform.regBase + 4 * k) 32 v :: rest) :
    step s = .next { s with pending := rest } := by
  rw [step_write hs h, target_reserved _ k h9 hk, writeTarget]

/-! ### A write to CMD -/

theorem writeCmd_of_command {w : Word} {i : Instr} (h : decode w = .command i) (s : State) :
    writeCmd w s = .next (closeWindow (afterCommand i s)) := by
  simp [writeCmd, h, runCommand, exec_eq_afterCommand]

theorem writeCmd_of_illegalCommand {w w' : Word} (h : decode w = .illegalCommand w') (s : State) :
    writeCmd w s = .next (raiseIllegalCommand s) := by
  simp [writeCmd, h]

theorem decode_encode (i : Instr) : decode (encode i) = .command i := by cases i <;> decide

/-- What a write to CMD can do: run the command of a command word, or raise the event of an illegal one (30_encoding.md R62). -/
theorem writeCmd_cases {w : Word} {s t : State} (h : writeCmd w s = .next t) :
    (∃ i, t = closeWindow (afterCommand i s)) ∨ ((∀ i, w ≠ encode i) ∧ t = raiseIllegalCommand s) := by
  cases hd : decode w with
  | command i =>
    rw [writeCmd_of_command hd] at h
    cases h
    exact .inl ⟨i, rfl⟩
  | illegalCommand w' =>
    rw [writeCmd_of_illegalCommand hd] at h
    cases h
    refine .inr ⟨fun i hi => ?_, rfl⟩
    rw [hi, decode_encode] at hd
    cases hd

/-! ### What an event that is no reset leaves alone -/

/-- A write that reaches a register is a host write to it. -/
theorem WritesAt.writesTo {p : Platform} {observed : List Word} {e : Input} {r : Reg} {v : Word}
    (h : WritesAt p observed e (.reg r) v) : writesTo p r e := by
  rcases h with ⟨a, width, rfl, ht⟩ | ⟨a, width, rfl, ht, -⟩
  · obtain ⟨rfl, rfl⟩ := target_eq_reg ht
    exact .inl ⟨v, rfl⟩
  · obtain ⟨rfl, rfl⟩ := target_eq_reg ht
    exact .inr rfl

/-- An event that is no reset writes one register, or touches only what lies outside the block: memory, the stores racing on it,
and the model's records of the host's accesses. -/
theorem accept_cases_of_ne_reset {e : Input} {s t : State} (h : accept e s = .next t) (he : e ≠ .reset) :
    (∃ mem racing held observed,
      t = { s with mem := mem, racing := racing, held := held, observed := observed }) ∨
    ∃ r v, WritesAt s.platform s.observed e (.reg r) v ∧ writeReg r v s = .next t := by
  rcases accept_cases h with
    ⟨-, rfl⟩ | ⟨g, v, hw, -, ht⟩ | ⟨_, _, -, -, rfl⟩ | ⟨rfl, -⟩ | ⟨_, _, -, rfl⟩ | ⟨_, _, -, rfl⟩
  · exact .inl ⟨_, _, _, _, rfl⟩
  · cases g with
    | reg r => exact .inr ⟨r, v, hw, ht⟩
    | reserved => cases ht; exact .inl ⟨_, _, _, _, rfl⟩
    | refused why => cases ht
  · exact .inl ⟨_, _, _, _, rfl⟩
  · exact absurd rfl he
  · exact .inl ⟨_, _, _, _, rfl⟩
  · exact .inl ⟨_, _, _, _, rfl⟩

/-- From `s` to `t` the block keeps every operand register but those in `W`, and unless CMD is in `W` all that commands write
and ILLCMD (10_state.md R24 to R30, R36). -/
structure KeepsBlockBut (W : Reg → Prop) (s t : State) : Prop where
  seed : ¬ W .seed → t.seed = s.seed
  addr : ¬ W .addr → t.addr = s.addr
  len : ¬ W .len → t.len = s.len
  tsel : ¬ W .tsel → t.tsel = s.tsel
  opnd : ¬ W .opnd → t.opnd = s.opnd
  cmd : ¬ W .cmd → t.result = s.result ∧ t.table = s.table ∧ t.tvalid = s.tvalid ∧ t.illcmd = s.illcmd ∧
    t.stuck = s.stuck ∧ t.unfinished = s.unfinished ∧ t.readLog = s.readLog

theorem KeepsBlockBut.mono {W W' : Reg → Prop} {s t : State} (h : KeepsBlockBut W s t) (hW : ∀ r, W r → W' r) :
    KeepsBlockBut W' s t where
  seed hn := h.seed (mt (hW _) hn)
  addr hn := h.addr (mt (hW _) hn)
  len hn := h.len (mt (hW _) hn)
  tsel hn := h.tsel (mt (hW _) hn)
  opnd hn := h.opnd (mt (hW _) hn)
  cmd hn := h.cmd (mt (hW _) hn)

theorem keepsBlockBut_outside (W : Reg → Prop) (s : State) (mem : List Host.Cell) (racing : List Store)
    (held : List Input) (observed : List Word) :
    KeepsBlockBut W s { s with mem := mem, racing := racing, held := held, observed := observed } where
  seed _ := rfl
  addr _ := rfl
  len _ := rfl
  tsel _ := rfl
  opnd _ := rfl
  cmd _ := ⟨rfl, rfl, rfl, rfl, rfl, rfl, rfl⟩

/-- A write to CMD leaves the operand registers alone (10_state.md R36, 60_exceptions.md R161). -/
theorem writeCmd_keepsBlockBut {w : Word} {s t : State} (h : writeCmd w s = .next t) :
    KeepsBlockBut (· = .cmd) s t := by
  rcases writeCmd_cases h with ⟨i, rfl⟩ | ⟨-, rfl⟩ <;> constructor <;> simp

/-- A write to a register changes that register or, to CMD, what commands write. -/
theorem writeReg_keepsBlockBut {r : Reg} {v : Word} {s t : State} (h : writeReg r v s = .next t) :
    KeepsBlockBut (· = r) s t := by
  cases r with
  | cmd => exact writeCmd_keepsBlockBut h
  | seed | addr | len | tsel | opnd | status | result | poly => cases h; constructor <;> simp

theorem accept_keepsBlockBut {e : Input} {s t : State} (h : accept e s = .next t) (he : e ≠ .reset) :
    KeepsBlockBut (writesTo s.platform · e) s t := by
  rcases accept_cases_of_ne_reset h he with ⟨_, _, _, _, rfl⟩ | ⟨r, v, hw, ht⟩
  · exact keepsBlockBut_outside _ s _ _ _ _
  · exact (writeReg_keepsBlockBut ht).mono fun _ hr => hr ▸ hw.writesTo

/-- An event that is no reset runs a write to CMD, or leaves alone all that commands write and ILLCMD. -/
theorem accept_cmd_or_keeps {e : Input} {s t : State} (h : accept e s = .next t) (he : e ≠ .reset) :
    (∃ v, WritesAt s.platform s.observed e (.reg .cmd) v ∧ writeCmd v s = .next t) ∨ KeepsBlockBut (· ≠ .cmd) s t := by
  rcases accept_cases_of_ne_reset h he with ⟨_, _, _, _, rfl⟩ | ⟨r, v, hw, ht⟩
  · exact .inr (keepsBlockBut_outside _ s _ _ _ _)
  · by_cases hr : r = .cmd
    · subst hr
      exact .inl ⟨v, hw, ht⟩
    · exact .inr ((writeReg_keepsBlockBut ht).mono fun _ h => h ▸ hr)

theorem writeCmd_tvalid_of_tvalid {w : Word} {s t : State} (h : writeCmd w s = .next t) (hv : s.tvalid = true) :
    t.tvalid = true := by
  rcases writeCmd_cases h with ⟨i, rfl⟩ | ⟨-, rfl⟩
  · exact afterCommand_tvalid_of_tvalid i hv
  · exact hv

end Sys2Proof.Machine
end

section
/-! PROOF. The invariant of the machine: every command, every register write and every event keeps it (10_state.md R23, R31,
20_memory.md R43, R48, 70_reset_and_hazards.md R180, R189). -/

namespace Sys2Proof.Machine

/-- A command keeps the invariant, stuck reads included. -/
theorem inv_afterCommand (i : Instr) {s : State} (h : Inv s) : Inv (afterCommand i s) where
  table := tableValid_afterCommand i h.table
  mem := by simpa using h.mem
  base := by simpa using h.base
  reads := by
    rw [afterCommand_platform]
    rcases afterCommand_reads i s with ⟨hplan, hlog, -⟩ | ⟨before, q, after, hplan, hbefore, -, hlog, -⟩
    · rw [hlog]
      exact List.forall_mem_append.mpr ⟨h.reads, fun q hq => ⟨hplan q hq, wordAligned_of_mem_commandReads hq⟩⟩
    · rw [hlog]
      refine List.forall_mem_append.mpr ⟨h.reads, fun q hq => ⟨hbefore q hq, ?_⟩⟩
      exact wordAligned_of_mem_commandReads (hplan ▸ List.mem_append_left _ hq)
  stuck := by
    rw [afterCommand_platform]
    rcases afterCommand_reads i s with ⟨-, -, hstuck, hunf⟩ | ⟨before, q, after, hplan, -, hq, -, hstuck, hunf⟩
    · rw [hstuck, hunf]
      intro q hq
      obtain ⟨hrefused, haligned, hvalid, hmem⟩ := h.stuck q hq
      exact ⟨hrefused, haligned, afterCommand_tvalid_of_tvalid i hvalid, hmem⟩
    · rw [hstuck, hunf]
      rintro q' ⟨rfl⟩
      have hmem : q ∈ commandReads i s.addr s.len.toNat := by simp [hplan]
      refine ⟨hq, wordAligned_of_mem_commandReads hmem, ?_, by simp⟩
      cases i with
      | build | rdtab | rev32 => cases hmem
      | crc | crcq => simp [afterCommand]

/-- The racing stores that complete keep memory in canonical form, and the invariant reads nothing else that they change. -/
theorem inv_closeWindow {s : State} (h : Inv s) : Inv (closeWindow s) :=
  ⟨h.table, wf_closeWindow s h.mem, h.base, h.reads, h.stuck⟩

theorem inv_resetBlock {s : State} (h : Inv s) : Inv (resetBlock s) where
  table hv := by cases hv
  mem := h.mem
  base := h.base
  reads := h.reads
  stuck q hq := by cases hq

theorem inv_writeReg {r : Reg} {v : Word} {s t : State} (h : Inv s) (ht : writeReg r v s = .next t) : Inv t := by
  cases r with
  | cmd =>
    rcases writeCmd_cases ht with ⟨i, rfl⟩ | ⟨-, rfl⟩
    · exact inv_closeWindow (inv_afterCommand i h)
    · exact ⟨h.table, h.mem, h.base, h.reads, h.stuck⟩
  | seed | addr | len | tsel | opnd | status | result | poly =>
    cases ht
    exact ⟨h.table, h.mem, h.base, h.reads, h.stuck⟩

theorem inv_writeTarget {g : Target} {v : Word} {s t : State} (h : Inv s) (ht : writeTarget g v s = .next t) : Inv t := by
  cases g with
  | reg r => exact inv_writeReg h ht
  | reserved => cases ht; exact h
  | refused why => cases ht

theorem inv_accept {e : Input} {s t : State} (h : Inv s) (ht : accept e s = .next t) : Inv t := by
  rcases accept_cases ht with
    ⟨-, rfl⟩ | ⟨g, v, -, -, hw⟩ | ⟨_, _, -, -, rfl⟩ | ⟨-, rfl⟩ | ⟨a, b, -, rfl⟩ | ⟨_, _, -, rfl⟩
  · exact ⟨h.table, h.mem, h.base, h.reads, h.stuck⟩
  · exact inv_writeTarget h hw
  · exact ⟨h.table, h.mem, h.base, h.reads, h.stuck⟩
  · exact inv_resetBlock h
  · exact ⟨h.table, wf_storeByte s.mem a b h.mem, h.base, h.reads, h.stuck⟩
  · exact ⟨h.table, h.mem, h.base, h.reads, h.stuck⟩

/-- Settles O48: each event keeps the invariant; the reads a command makes are the first of `commandReads`, up to the
one that is not admitted, and those are aligned. -/
theorem stepKeepsInvariant : Obligations.StepKeepsInvariant := by
  unfold Obligations.StepKeepsInvariant
  intro s t h ht
  rcases step_cases ht with ⟨-, rfl⟩ | ⟨e, rest, -, ht⟩
  · exact h
  · exact inv_accept (s := { s with pending := rest }) ⟨h.table, h.mem, h.base, h.reads, h.stuck⟩ ht

/-- Settles O47: no command has run, and memory lists nothing. -/
theorem invariantAtReset : Obligations.InvariantAtReset where
  table hv := by cases hv
  mem := wf_reset
  base := by decide
  reads q hq := by cases hq
  stuck q hq := by cases hq

end Sys2Proof.Machine
end

section
/-! PROOF. The statements about what commands, register accesses and other events do and leave alone (10_state.md R21 to R36,
20_memory.md R41, 30_encoding.md R62, R65). -/

namespace Sys2Proof.Machine

/-- Settles O30: only a write to CMD can change ILLCMD, and a command leaves it. -/
theorem onlyIllegalWordSetsIllcmd : Obligations.OnlyIllegalWordSetsIllcmd := by
  unfold Obligations.OnlyIllegalWordSetsIllcmd
  intro s t hs ht hill
  rcases step_cases ht with ⟨-, rfl⟩ | ⟨e, rest, hp, ht⟩
  · simp [hs] at hill
  by_cases he : e = .reset
  · subst he
    cases ht
    cases hill
  rcases accept_cmd_or_keeps ht he with ⟨v, hw, hcmd⟩ | hkeep
  · rcases writeCmd_cases hcmd with ⟨i, rfl⟩ | ⟨hillegal, -⟩
    · simp [hs] at hill
    · refine ⟨v, rest, ?_, hillegal⟩
      rcases hw with ⟨a, width, rfl, htarget⟩ | ⟨a, width, rfl, htarget, hlast⟩
      · obtain ⟨rfl, rfl⟩ := target_eq_reg htarget
        exact .inl hp
      · obtain ⟨rfl, rfl⟩ := target_eq_reg htarget
        exact .inr ⟨hp, hlast⟩
  · obtain ⟨-, -, -, hsame, -⟩ := hkeep.cmd (by simp)
    simp [hsame, hs] at hill

/-- Settles O31: of the events that are no reset only a command writes TVALID, and it sets it. -/
theorem tvalidStaysUntilReset : Obligations.TvalidStaysUntilReset := by
  unfold Obligations.TvalidStaysUntilReset
  intro s t e rest hp ht he
  rw [step_of_pending hp] at ht
  constructor
  · intro hv
    rcases accept_cmd_or_keeps ht he with ⟨v, -, hcmd⟩ | hkeep
    · exact writeCmd_tvalid_of_tvalid hcmd hv
    · obtain ⟨-, -, hsame, -⟩ := hkeep.cmd (by simp)
      exact hsame.trans hv
  · intro hn
    obtain ⟨-, -, hsame, -⟩ := (accept_keepsBlockBut ht he).cmd hn
    exact hsame

/-- Settles O32: a read that reaches a slot returns the slot's value and does nothing else. -/
theorem registerReadsReturnValues : Obligations.RegisterReadsReturnValues := by
  unfold Obligations.RegisterReadsReturnValues
  intro s rest hs
  constructor
  · intro r hp
    rw [step_read hs hp (target_reg _ r) (by simp)]
    cases r <;> rfl
  · intro k h9 hk hp
    rw [step_read hs hp (target_reserved _ k h9 hk) (by simp)]
    rfl

theorem tselOfWrite_eq_setWidth (v : Word) : tselOfWrite v = v.setWidth 11 := by
  ext i hi
  simp [tselOfWrite]

/-- Settles O33: each write reaches its register or a reserved slot. -/
theorem registerWritesStoreValues : Obligations.RegisterWritesStoreValues := by
  unfold Obligations.RegisterWritesStoreValues
  intro s v rest hs
  refine ⟨step_write_reg hs .seed, step_write_reg hs .addr, step_write_reg hs .len, fun hp => ?_,
    step_write_reg hs .opnd, fun k hk hp => ?_⟩
  · rw [step_write_reg hs .tsel hp, writeReg, tselOfWrite_eq_setWidth]
  · obtain rfl | rfl | rfl | h9 : k = 1 ∨ k = 5 ∨ k = 8 ∨ 9 ≤ k := by omega
    · exact step_write_reg hs .status hp
    · exact step_write_reg hs .result hp
    · exact step_write_reg hs .poly hp
    · exact step_write_reserved hs h9 (by omega) hp

/-- Settles O40: an event that is no reset writes at most one register, and a write to CMD no operand register. -/
theorem onlyNamedEventsChangeRegisters : Obligations.OnlyNamedEventsChangeRegisters := by
  unfold Obligations.OnlyNamedEventsChangeRegisters
  intro s t e rest hp ht he
  rw [step_of_pending hp] at ht
  have hkeep := accept_keepsBlockBut ht he
  exact ⟨hkeep.seed, hkeep.addr, hkeep.len, hkeep.tsel, hkeep.opnd, hkeep.cmd⟩

/-- Settles O27: the frame of `afterCommand`. -/
theorem commandsWriteOnlyTheirState : Obligations.CommandsWriteOnlyTheirState := by
  unfold Obligations.CommandsWriteOnlyTheirState
  intro i s
  refine ⟨afterCommand i s, exec_eq_afterCommand i s, afterCommand_seed i s, afterCommand_addr i s, afterCommand_len i s,
    afterCommand_tsel i s, afterCommand_opnd i s, afterCommand_illcmd i s, afterCommand_platform i s, afterCommand_mem i s,
    fun a => by rw [afterCommand_mem], afterCommand_racing i s, afterCommand_pending i s, afterCommand_held i s,
    afterCommand_observed i s, afterCommand_draws i s, ?_, ?_, ?_, ?_⟩
  · rintro rfl
    rfl
  · rintro rfl
    exact ⟨rfl, rfl⟩
  · exact fun hi hv => ⟨afterCommand_table_of_tvalid hi hv, afterCommand_tvalid_of_tvalid i hv⟩
  · rintro (rfl | rfl | rfl) <;> exact afterCommand_of_no_reads rfl

/-- Settles O28: the write reaches CMD, and what follows `exec` is `closeWindow`. -/
theorem stepRunsDecodedCommand : Obligations.StepRunsDecodedCommand := by
  unfold Obligations.StepRunsDecodedCommand
  intro s w i rest hs hp hd
  rw [step_write_reg hs .cmd hp, writeReg, writeCmd_of_command hd, exec_eq_afterCommand]
  rfl

/-- Settles O37: an access is looked at for its address, then for its width and alignment, before anything else. -/
theorem unsupportedAccessesAreRefused : Obligations.UnsupportedAccessesAreRefused := by
  unfold Obligations.UnsupportedAccessesAreRefused
  intro s e a width rest hp he
  rw [step_of_pending hp]
  exact ⟨fun hout => accept_of_target_refused he (target_outside hout width),
    fun hlo hhi h => accept_of_target_refused he (target_unsupported hlo hhi h)⟩

/-- Settles O45: the fields of the reset state, and the two words made from them. -/
theorem resetState : Obligations.ResetState := by
  unfold Obligations.ResetState
  exact ⟨rfl, rfl, rfl, rfl, rfl, rfl, rfl, rfl, rfl, rfl⟩

end Sys2Proof.Machine
end

section
/-! PROOF. The reads of a checksum command against the buffer, and the command at the first read the platform refuses
(20_memory.md R43 to R48). -/

namespace Sys2Proof.Machine

/-! ### The bytes the reads take -/

/-- A read takes bytes from consecutive addresses (20_memory.md R42). -/
theorem readAddrs_eq (a : Word) (w : ReadWidth) : readAddrs ⟨a, w⟩ = (List.range (readBytes w)).map (bufAddr a) := by
  cases w <;> simp [readAddrs, readBytes, bufAddr, List.range_succ]

/-- Two runs of addresses in a row are one run. -/
theorem map_bufAddr_append (a : Word) (m n : Nat) :
    (List.range m).map (bufAddr a) ++ (List.range n).map (bufAddr (bufAddr a m)) =
      (List.range (m + n)).map (bufAddr a) := by
  simp [List.range_add, bufAddr_bufAddr, Function.comp_def]

/-- Reads in a row take the bytes from the first address on, each once. -/
theorem flatMap_readAddrs_readsFrom (w : ReadWidth) (a : Word) (k : Nat) :
    (readsFrom w a k).flatMap readAddrs = (List.range (readBytes w * k)).map (bufAddr a) := by
  induction k generalizing a with
  | zero => rfl
  | succ k ih =>
    rw [readsFrom_succ, List.flatMap_cons, ih, readAddrs_eq, map_bufAddr_append, Nat.mul_succ, Nat.add_comm]

/-- The reads of a checksum command take the bytes of the buffer in address order (20_memory.md R46, R47). -/
theorem flatMap_readAddrs_commandReads {i : Instr} (hi : i = .crc ∨ i = .crcq) (a : Word) (n : Nat) :
    (commandReads i a n).flatMap readAddrs = (List.range n).map (bufAddr a) := by
  rcases hi with rfl | rfl
  · rw [commandReads, crcReads_eq_readsFrom, flatMap_readAddrs_readsFrom, readBytes, Nat.one_mul]
  · rw [commandReads, crcqReads_eq_readsFrom, List.flatMap_append, List.flatMap_append]
    simp only [flatMap_readAddrs_readsFrom, readBytes, Nat.one_mul]
    rw [map_bufAddr_append, map_bufAddr_append, alignLen_add_wordCount_add_trailLen]

/-- No address of a buffer comes twice, since its length is below 2^32 (20_memory.md R45). -/
theorem nodup_map_bufAddr (a : Word) {n : Nat} (hn : n ≤ 2 ^ 32) : ((List.range n).map (bufAddr a)).Nodup := by
  refine List.nodup_range.map_on fun j hj k hk h => ?_
  rw [List.mem_range] at hj hk
  have hjk : BitVec.ofNat 32 j = BitVec.ofNat 32 k := (BitVec.add_right_inj _).mp h
  have := congrArg BitVec.toNat hjk
  simp only [BitVec.toNat_ofNat] at this
  omega

/-- CRC makes 1-byte reads only (41_bytewise_engine.md R101). -/
theorem width_of_mem_crcReads {a : Word} {n : Nat} {q : ReadReq} (h : q ∈ crcReads a n) : q.width = .byte := by
  obtain ⟨j, -, rfl⟩ := List.mem_map.mp h
  rfl

/-- A command whose reads are all admitted makes every one of them. -/
theorem afterCommand_readLog_of_admitted {i : Instr} {s : State}
    (h : allAdmitted s.platform (commandReads i s.addr s.len.toNat)) :
    (afterCommand i s).readLog = s.readLog ++ commandReads i s.addr s.len.toNat := by
  rcases afterCommand_reads i s with ⟨-, hlog, -⟩ | ⟨before, q, after, hplan, -, hq, -⟩
  · exact hlog
  · have : memAdmits s.platform q = true := h q (by simp [hplan])
    simp [hq] at this

/-! ### The first refused read -/

/-- A list of reads has only one first read that is not admitted. -/
theorem first_refused_unique {p : Platform} {before before' after after' : List ReadReq} {q q' : ReadReq}
    (h : before ++ q :: after = before' ++ q' :: after') (hb : allAdmitted p before) (hb' : allAdmitted p before')
    (hq : memAdmits p q = false) (hq' : memAdmits p q' = false) : before = before' ∧ q = q' := by
  have htake := congrArg (List.takeWhile (memAdmits p)) h
  rw [List.takeWhile_append_of_pos hb, List.takeWhile_append_of_pos hb', List.takeWhile_cons_of_neg (by simp [hq]),
    List.takeWhile_cons_of_neg (by simp [hq']), List.append_nil, List.append_nil] at htake
  subst htake
  obtain ⟨rfl, -⟩ := List.cons.inj (List.append_cancel_left h)
  exact ⟨rfl, rfl⟩

/-- A walk whose plan holds a read that is not admitted is stuck on the first such read, with the reads before it made. -/
theorem Progress.Follows.stuck_of_refused {p : Platform} {cur : Cursor} {n : Nat} {before after : List ReadReq}
    {q : ReadReq} {g : Progress} (h : g.Follows p cur n (before ++ q :: after)) (hb : allAdmitted p before)
    (hq : memAdmits p q = false) : ∃ last, g = .stuck last q ∧ last.reads = cur.reads ++ before := by
  cases g with
  | on next =>
    obtain ⟨-, -, hplan⟩ := h
    have : memAdmits p q = true := hplan q (by simp)
    simp [hq] at this
  | stuck last q' =>
    obtain ⟨before', after', hplan, hreads, hb', hq'⟩ := h
    obtain ⟨rfl, rfl⟩ := first_refused_unique hplan hb hb' hq hq'
    exact ⟨last, rfl, hreads⟩

/-- The state in which a checksum command is stuck on `q` after the reads `before` (20_memory.md R48; log entry 7). -/
def checksumStuck (s : State) (before : List ReadReq) (q : ReadReq) : State :=
  { s with
    table := builtTable
    tvalid := true
    stuck := some q
    unfinished := s.unfinished ++ [q]
    readLog := s.readLog ++ before }

/-- A checksum walk that is stuck leaves RESULT unwritten. -/
theorem finishChecksum_of_refused {s : State} (h : TableValid s) {cur : Cursor} (hcur : cur.reads = []) {n : Nat}
    {before after : List ReadReq} {q : ReadReq} {g : Progress} (hg : g.Follows s.platform cur n (before ++ q :: after))
    (hb : allAdmitted s.platform before) (hq : memAdmits s.platform q = false) :
    finishChecksum (ensureTable s) g = checksumStuck s before q := by
  obtain ⟨last, rfl, hreads⟩ := hg.stuck_of_refused hb hq
  rw [finishChecksum_stuck, hreads, hcur, List.nil_append, ensureTable_eq h]
  rfl

/-- A checksum command is stuck on the first of its reads that is not admitted. -/
theorem exec_checksum_of_refused {i : Instr} {s : State} (hi : i = .crc ∨ i = .crcq) (h : TableValid s)
    {before after : List ReadReq} {q : ReadReq} (hplan : commandReads i s.addr s.len.toNat = before ++ q :: after)
    (hb : allAdmitted s.platform before) (hq : memAdmits s.platform q = false) :
    exec i s = .next (checksumStuck s before q) := by
  rcases hi with rfl | rfl
  · have hwalk := byteWalk_follows (ensureTable s)
    rw [commandReads] at hplan
    simp only [ensureTable_platform, ensureTable_addr, ensureTable_len, hplan] at hwalk
    rw [exec_crc, finishChecksum_of_refused h rfl hwalk hb hq]
  · have hwalk := quadWalk_follows (ensureTable s)
    rw [commandReads] at hplan
    simp only [ensureTable_platform, ensureTable_addr, ensureTable_len, hplan] at hwalk
    rw [exec_crcq, finishChecksum_of_refused h rfl hwalk hb hq]

end Sys2Proof.Machine
end

section
/-! PROOF. The events that touch buffer memory or wait: what a read sees of the racing stores, the accesses behind a stuck
command, and what no event changes (20_memory.md R42, R48 to R51). -/

namespace Sys2Proof.Machine

/-! ### Racing stores -/

/-- A read of an address sees the byte memory holds there or the byte of a racing store to it, whatever the free values
(20_memory.md R50). -/
theorem racedByte_old_or_new (draw : Nat) (a : Word) (ws : List Store) (b : Byte) :
    racedByte draw a ws b = b ∨ ∃ w ∈ ws, w.addr = a ∧ racedByte draw a ws b = w.byte := by
  induction ws generalizing b with
  | nil => exact .inl rfl
  | cons w ws ih =>
    have later : ∀ c, racedByte draw a ws c = c ∨ ∃ v ∈ w :: ws, v.addr = a ∧ racedByte draw a ws c = v.byte :=
      fun c => (ih c).imp_right fun ⟨v, hv, h⟩ => ⟨v, List.mem_cons_of_mem _ hv, h⟩
    by_cases hw : w.addr = a
    · cases hnew : Config.raceSeesNew draw a ws.length with
      | false => simpa [racedByte, hw, hnew] using later b
      | true =>
        have hraced : racedByte draw a (w :: ws) b = racedByte draw a ws w.byte := by simp [racedByte, hw, hnew]
        rw [hraced]
        rcases later w.byte with h | h
        · exact .inr ⟨w, List.mem_cons_self, hw, h⟩
        · exact .inr h
    · simpa [racedByte, hw] using later b

/-- Where no racing store falls on the buffer, the buffer is what memory holds (20_memory.md R42). -/
theorem buffer_of_stable {s : State} (h : BufferStable s) :
    buffer s = (List.range s.len.toNat).map fun k => Memory.read s.mem (bufAddr s.addr k).toNat :=
  List.map_congr_left fun k hk =>
    racedByte_of_untouched _ _ _ _ fun w hw => h w hw k (List.mem_range.mp hk)

/-! ### Accesses behind a stuck command -/

/-- A 32-bit access at one of the 16 slots is not refused (10_state.md R31, R32). -/
theorem target_slot_ne_refused (p : Platform) {k : Nat} (hk : k < 16) (why : Refusal) :
    target p (p.regBase + 4 * k) 32 ≠ .refused why := by
  unfold target
  rw [if_neg (by omega), if_neg (by omega)]
  split <;> simp

/-- Behind a stuck command a host access of any kind that is not refused is only recorded (20_memory.md R48; log entry 5). -/
theorem accept_of_stuck {s : State} {e : Input} {a width : Nat} (hs : s.stuck ≠ none)
    (he : (∃ v, e = .write a width v) ∨ e = .writeLastRead a width ∨ e = .read a width)
    (ht : ∀ why, target s.platform a width ≠ .refused why) : accept e s = .next { s with held := s.held ++ [e] } := by
  obtain ⟨q, hq⟩ := Option.ne_none_iff_exists'.mp hs
  cases hg : target s.platform a width with
  | refused why => exact absurd hg (ht why)
  | reg | reserved => rcases he with ⟨v, rfl⟩ | rfl | rfl <;> simp [accept, hg, hq]

/-! ### What no event changes -/

/-- A register write keeps the events to come and the platform. -/
theorem writeReg_pending_platform {r : Reg} {v : Word} {s t : State} (h : writeReg r v s = .next t) :
    t.pending = s.pending ∧ t.platform = s.platform := by
  cases r with
  | cmd => rcases writeCmd_cases h with ⟨i, rfl⟩ | ⟨-, rfl⟩ <;> simp
  | seed | addr | len | tsel | opnd | status | result | poly => cases h; exact ⟨rfl, rfl⟩

/-- No event adds one to come or takes one out, or writes the platform's parameters (log entries 1 and 2). -/
theorem accept_pending_platform {e : Input} {s t : State} (h : accept e s = .next t) :
    t.pending = s.pending ∧ t.platform = s.platform := by
  by_cases he : e = .reset
  · subst he
    cases h
    exact ⟨rfl, rfl⟩
  · rcases accept_cases_of_ne_reset h he with ⟨_, _, _, _, rfl⟩ | ⟨r, v, -, ht⟩
    · exact ⟨rfl, rfl⟩
    · exact writeReg_pending_platform ht

end Sys2Proof.Machine
end

section
/-! PROOF. The statements about buffer memory and its reads (20_memory.md R42 to R51). -/

namespace Sys2Proof.Machine

/-- Settles O16: the command makes the reads of `commandReads`, and these take the bytes of the buffer. -/
theorem readsCoverTheBufferOnce : Obligations.ReadsCoverTheBufferOnce := by
  unfold Obligations.ReadsCoverTheBufferOnce
  intro i s hi hr
  have hbytes := flatMap_readAddrs_commandReads hi s.addr s.len.toNat
  refine ⟨afterCommand i s, commandReads i s.addr s.len.toNat, exec_eq_afterCommand i s,
    afterCommand_readLog_of_admitted hr, hbytes, ?_, fun q hq => wordAligned_of_mem_commandReads hq, ?_⟩
  · rw [hbytes]
    exact nodup_map_bufAddr s.addr s.len.isLt.le
  · rintro rfl q hq
    exact width_of_mem_crcReads hq

/-- Settles O21: the walk follows its reads up to the first that is not admitted, and a stuck walk writes no RESULT. -/
theorem unadmittedReadLeavesCommandStuck : Obligations.UnadmittedReadLeavesCommandStuck := by
  unfold Obligations.UnadmittedReadLeavesCommandStuck
  intro i s before after q hi h hplan hb hq
  exact exec_checksum_of_refused hi h hplan hb hq

/-- Settles O38: a supported access reaches a slot, so it is not refused but held. -/
theorem stuckCommandHoldsAccesses : Obligations.StuckCommandHoldsAccesses := by
  unfold Obligations.StuckCommandHoldsAccesses
  intro s e rest hs hp ⟨k, hk, he⟩
  rw [step_of_pending hp]
  exact accept_of_stuck (s := { s with pending := rest }) hs he fun why => target_slot_ne_refused _ hk why

/-- Settles O41: a step takes the first event off, and no event changes the others or the platform. -/
theorem eventsHappenInOrder : Obligations.EventsHappenInOrder := by
  unfold Obligations.EventsHappenInOrder
  constructor
  · intro s t h
    rcases step_cases h with ⟨hp, rfl⟩ | ⟨e, rest, hp, ht⟩
    · simp [hp]
    · rw [hp]
      exact accept_pending_platform ht
  · intro s hp
    simp only [step, nextEvent, hp]

/-- Settles O42: the laws of a read after a store, on the memory the event leaves. -/
theorem storeIsSeenByReads : Obligations.StoreIsSeenByReads := by
  unfold Obligations.StoreIsSeenByReads
  intro s a b rest ⟨hsorted, _⟩ hp
  have hsame := Memory.read_write_same s.mem a.toNat b hsorted
  refine ⟨{ s with pending := rest, mem := storeByte s.mem a b }, step_of_pending hp, rfl, hsame,
    fun x hx => Memory.read_write_other s.mem a.toNat x b hx, fun hr => ?_⟩
  rw [bufByte, hr]
  exact hsame

/-- Settles O43: each racing store to the address leaves the byte or puts its own, and others leave it. -/
theorem racedByteIsOldOrNew : Obligations.RacedByteIsOldOrNew := by
  unfold Obligations.RacedByteIsOldOrNew
  exact ⟨fun s a => racedByte_old_or_new s.draws a s.racing _, fun s h => buffer_of_stable h⟩

/-- Settles O44: the event only joins the racing stores. -/
theorem racingStoreWaits : Obligations.RacingStoreWaits := by
  unfold Obligations.RacingStoreWaits
  intro s a b rest hp
  exact step_of_pending hp

end Sys2Proof.Machine
end

section
/-! PROOF. The command decoder as the inverse of the encoder: a word is a command word exactly where it is the encoding of a
command, and every other word is illegal (30_encoding.md R60 to R62). -/

namespace Sys2Proof.Machine

/-! ### A word and its two fields -/

/-- A command word is its field RSV above its field OP (30_encoding.md R60). -/
theorem rsvField_append_opField (w : Word) : rsvField w ++ opField w = w :=
  (BitVec.extractLsb'_append_extractLsb'_eq_extractLsb' rfl).trans BitVec.extractLsb'_eq_self

/-- RSV = 0 and the OP value of a command make its word (30_encoding.md R60, R61). -/
theorem eq_encode_of_fields {w : Word} {i : Instr} (hrsv : rsvField w = 0#28) (hop : (opField w).toNat = (opcode i).toNat) :
    w = encode i := by
  rw [← rsvField_append_opField w, hrsv, BitVec.eq_of_toNat_eq hop, encode]

/-! ### Decode and encode -/

/-- The decoder is total, and what it answers tells what the word is (30_encoding.md R62). -/
theorem decode_cases (w : Word) : (∃ i, decode w = .command i ∧ w = encode i) ∨ decode w = .illegalCommand w := by
  unfold decode
  split
  · exact .inr rfl
  · next hrsv =>
    replace hrsv := not_not.mp hrsv
    split
    · exact .inl ⟨.build, rfl, eq_encode_of_fields hrsv ‹_›⟩
    · exact .inl ⟨.crc, rfl, eq_encode_of_fields hrsv ‹_›⟩
    · exact .inl ⟨.crcq, rfl, eq_encode_of_fields hrsv ‹_›⟩
    · exact .inl ⟨.rdtab, rfl, eq_encode_of_fields hrsv ‹_›⟩
    · exact .inl ⟨.rev32, rfl, eq_encode_of_fields hrsv ‹_›⟩
    · exact .inr rfl

theorem decode_eq_command_iff {w : Word} {i : Instr} : decode w = .command i ↔ w = encode i := by
  constructor
  · intro h
    rcases decode_cases w with ⟨j, hj, hw⟩ | hill
    · cases hj.symm.trans h
      exact hw
    · cases hill.symm.trans h
  · rintro rfl
    exact decode_encode i

theorem decode_eq_illegalCommand_iff {w : Word} : decode w = .illegalCommand w ↔ ∀ i, w ≠ encode i := by
  constructor
  · rintro h i rfl
    cases (decode_encode i).symm.trans h
  · intro hne
    rcases decode_cases w with ⟨i, -, hw⟩ | hill
    · exact absurd hw (hne i)
    · exact hill

/-- The command words are the words 1 to 5 (30_encoding.md R61). -/
theorem exists_eq_encode_iff {w : Word} : (∃ i, w = encode i) ↔ 1#32 ≤ w ∧ w ≤ 5#32 := by
  constructor
  · rintro ⟨i, rfl⟩
    cases i <;> decide
  · rintro ⟨hlo, hhi⟩
    obtain rfl | rfl | rfl | rfl | rfl : w = 1#32 ∨ w = 2#32 ∨ w = 3#32 ∨ w = 4#32 ∨ w = 5#32 := by bv_omega
    · exact ⟨.build, rfl⟩
    · exact ⟨.crc, rfl⟩
    · exact ⟨.crcq, rfl⟩
    · exact ⟨.rdtab, rfl⟩
    · exact ⟨.rev32, rfl⟩

/-! ### The accesses of host lines -/

/-- A register's offset is that of one of the 16 slots (10_state.md R31). -/
theorem Reg.exists_slot (r : Reg) : ∃ k < 16, r.offset = 4 * k := by
  have := Reg.offset_lt r
  exact ⟨r.offset / 4, by omega, by omega⟩

/-- A 32-bit access of any kind to a register is supported (10_state.md R32). -/
theorem supportedAccess_reg {p : Platform} {r : Reg} {e : Input}
    (he : (∃ v, e = .write (p.regBase + r.offset) 32 v) ∨ e = .writeLastRead (p.regBase + r.offset) 32 ∨
      e = .read (p.regBase + r.offset) 32) : supportedAccess p e := by
  obtain ⟨k, hk, hr⟩ := Reg.exists_slot r
  exact ⟨k, hk, hr ▸ he⟩

/-- With no command stuck, a write of the value read last is the write of that value. -/
theorem accept_writeLastRead {s : State} (hs : s.stuck = none) {v : Word} (hv : s.observed.getLast? = some v)
    (a width : Nat) : accept (.writeLastRead a width) s = accept (.write a width v) s := by
  rw [accept_write hs]
  cases ht : target s.platform a width <;> simp [accept, ht, hs, hv, writeTarget]

end Sys2Proof.Machine
end

section
/-! PROOF. The statements about command words and host lines (30_encoding.md R60 to R68). -/

namespace Sys2Proof.Machine

/-- Settles O1: five words are the encodings of the commands, and the decoder evaluates the other three as illegal. -/
theorem decodeOfWrittenOutWords : Obligations.DecodeOfWrittenOutWords := by
  unfold Obligations.DecodeOfWrittenOutWords
  exact ⟨decode_encode .build, decode_encode .crc, decode_encode .crcq, decode_encode .rdtab, decode_encode .rev32,
    by decide, by decide, by decide⟩

/-- Settles O2: a word decodes to a command exactly where it is the command's encoding, and the encodings are 1 to 5. -/
theorem legalWordsAreExactlyFive : Obligations.LegalWordsAreExactlyFive := by
  unfold Obligations.LegalWordsAreExactlyFive
  intro w
  refine ⟨decode_eq_command_iff, decode_eq_command_iff, decode_eq_command_iff, decode_eq_command_iff,
    decode_eq_command_iff, ?_⟩
  rw [decode_eq_illegalCommand_iff, ← not_exists, exists_eq_encode_iff]
  bv_omega

/-- Settles O3: both directions of `decode_eq_command_iff`. -/
theorem decodeEncodeAgree : Obligations.DecodeEncodeAgree := by
  unfold Obligations.DecodeEncodeAgree
  exact ⟨fun i _ => decode_encode i, fun w i h => (decode_eq_command_iff.mp h).symm⟩

/-- Settles O34: the two events do the same once they are taken off. -/
theorem writeOfLastReadIsAWrite : Obligations.WriteOfLastReadIsAWrite := by
  unfold Obligations.WriteOfLastReadIsAWrite
  intro s a width v rest hs hv
  rw [step_of_pending rfl, step_of_pending rfl]
  exact accept_writeLastRead (s := { s with pending := rest }) hs hv a width

/-- Settles O35: each line names a register, and a register's offset is that of a slot. -/
theorem hostLinesAreRegisterAccesses : Obligations.HostLinesAreRegisterAccesses := by
  unfold Obligations.HostLinesAreRegisterAccesses
  intro p
  refine ⟨fun r v => rfl, fun r => rfl, fun i => rfl, fun l => ?_⟩
  cases l with
  | wr r v => exact supportedAccess_reg (.inl ⟨v, rfl⟩)
  | wrLastRead r => exact supportedAccess_reg (.inr (.inl rfl))
  | rd r => exact supportedAccess_reg (.inr (.inr rfl))
  | cmd i => exact supportedAccess_reg (r := .cmd) (.inl ⟨encode i, rfl⟩)

/-- Settles O36: the expansions are the lines of R68, and only `rdtab` has operands to check. -/
theorem pseudoInstructionsExpand : Obligations.PseudoInstructionsExpand := by
  unfold Obligations.PseudoInstructionsExpand
  refine ⟨fun _ _ _ => rfl, fun _ _ _ => rfl, fun _ _ => rfl, fun _ _ => rfl, fun _ => rfl, rfl, fun l n => ?_⟩
  rw [Pseudo.wf, Bool.and_eq_true, decide_eq_true_iff, decide_eq_true_iff]

end Sys2Proof.Machine
end

section
/-! PROOF. The table builder's two commands, and the built table level by level: each level is the zero-byte step of the one
before, every level is linear over xor (40_table_builder.md R82 to R84, R86, R87). -/

namespace Sys2Proof.Machine

/-! ### The commands -/

theorem exec_build (s : State) : exec .build s = .next (buildTable s) := rfl

theorem exec_rdtab (s : State) : exec .rdtab s = .next { ensureTable s with
    result := (ensureTable s).table.entry (tselLevel (ensureTable s)) (tselIndex (ensureTable s)) } := rfl

/-! ### The zero-byte step -/

@[simp] theorem zext32_zero : zext32 0#8 = 0#32 := rfl

theorem zeroStep_eq_step8 (c : Word) : zeroStep c = step8 builtTable c 0#8 := by
  rw [zeroStep, step8, zext32_zero, BitVec.xor_zero]

/-- A zero byte is a division of the accumulator alone. -/
theorem zeroStep_eq_rdiv8 : zeroStep = rdiv8 := by
  funext c
  rw [zeroStep_eq_step8, step8_builtTable, zext32_zero, BitVec.xor_zero]

/-- A level of the built table from the one before, in the terms of 40_table_builder.md R82. -/
theorem builtTable_entry_succ {l : BitVec 3} (h : l ≠ 7#3) (n : Byte) :
    builtTable.entry (l + 1#3) n = zeroStep (builtTable.entry l n) := by
  have hl : (l + 1#3).toNat = l.toNat + 1 := by bv_omega
  rw [builtTable_entry_eq_rdiv8_iterate, hl, Function.iterate_succ_apply', ← builtTable_entry_eq_rdiv8_iterate,
    zeroStep_eq_rdiv8]

theorem builtTable_entry_eq_zeroStep_iterate (l : BitVec 3) (n : Byte) :
    builtTable.entry l n = zeroStep^[l.toNat] (builtTable.entry 0#3 n) := by
  rw [builtTable_entry_eq_rdiv8_iterate, Function.iterate_succ_apply, ← builtTable_entry_zero, zeroStep_eq_rdiv8]

/-! ### Linearity -/

theorem zext32_xor (n m : Byte) : zext32 (n ^^^ m) = zext32 n ^^^ zext32 m := BitVec.setWidth_xor

theorem rdiv8_zero : rdiv8 0#32 = 0#32 := rdiv8_of_lane_zero rfl

theorem builtTable_entry_xor (l : BitVec 3) (n m : Byte) :
    builtTable.entry l (n ^^^ m) = builtTable.entry l n ^^^ builtTable.entry l m := by
  simp only [builtTable_entry_eq_rdiv8_iterate, zext32_xor, rdiv8_iterate_xor]

theorem builtTable_entry_zero_index (l : BitVec 3) : builtTable.entry l 0#8 = 0#32 := by
  rw [builtTable_entry_eq_rdiv8_iterate, zext32_zero, Function.iterate_fixed rdiv8_zero]

end Sys2Proof.Machine
end

section
/-! PROOF. The statements about the table builder (40_table_builder.md R81 to R88). -/

namespace Sys2Proof.Machine

/-- Settles O4: BUILD is `buildTable`, level 0 of the built table is `rdiv8`, and each level is the zero-byte step of the one
before. -/
theorem buildWritesTheTable : Obligations.BuildWritesTheTable := by
  unfold Obligations.BuildWritesTheTable
  exact fun s => ⟨buildTable s, exec_build s, rfl, builtTable_entry_zero, fun _ n hl => builtTable_entry_succ hl n⟩

/-- Settles O6: RDTAB reads the entry from the ensured table, which is the built one. -/
theorem rdtabWritesTheSelectedEntry : Obligations.RdtabWritesTheSelectedEntry := by
  unfold Obligations.RdtabWritesTheSelectedEntry
  intro s h
  rw [exec_rdtab, ensureTable_eq h]
  rfl

/-- Settles O7: a bit step is linear, so are its iterates, and an entry is an iterate of `rdiv8` at its index. -/
theorem tableIsLinear : Obligations.TableIsLinear := by
  unfold Obligations.TableIsLinear
  exact ⟨rdiv8_xor, rdiv8_zero, builtTable_entry_xor, builtTable_entry_zero_index⟩

/-- Settles O8: a zero-byte step is `rdiv8`, and entry n of level L is n divided L + 1 times. -/
theorem levelsAreZeroByteSteps : Obligations.LevelsAreZeroByteSteps := by
  unfold Obligations.LevelsAreZeroByteSteps
  exact ⟨zeroStep_eq_step8, builtTable_entry_eq_zeroStep_iterate⟩

/-- Settles O5: `buildTable` writes the same constant in every state; a spot value is evaluated as the divisions of its
index. -/
theorem buildIsDeterministic : Obligations.BuildIsDeterministic := by
  unfold Obligations.BuildIsDeterministic
  refine ⟨fun s s' => ⟨buildTable s, buildTable s', exec_build s, exec_build s', rfl⟩, ?_⟩
  simp only [builtTable_entry_eq_rdiv8_iterate]
  decide

end Sys2Proof.Machine
end

section
/-! PROOF. Chaining, and a checksum command on a buffer whose length is known: the two parts of a buffer one after the other,
and the empty buffer (41_bytewise_engine.md R103, R104). -/

namespace Sys2Proof.Machine

/-! ### Chaining -/

theorem complement_complement (c : Word) : complement (complement c) = c := by
  simp only [complement, BitVec.xor_assoc, BitVec.xor_self, BitVec.xor_zero]

/-- The complement at the exit of one command is undone at the entry of the next (41_bytewise_engine.md R103). -/
theorem crcOf_append (seed : Word) (xs ys : List Byte) : crcOf seed (xs ++ ys) = crcOf (crcOf seed xs) ys := by
  simp only [crcOf, rawUpdate_append, complement_complement]

/-- The checksum of a buffer from the checksums of its two parts. -/
theorem crcOf_bytesAt_add (seed : Word) (s : State) (a : Word) (m n : Nat) :
    crcOf seed (bytesAt s a (m + n)) = crcOf (crcOf seed (bytesAt s a m)) (bytesAt s (bufAddr a m) n) := by
  rw [bytesAt_add, crcOf_append]

/-! ### What a completed command leaves for the next -/

theorem checksumDone_result (s : State) (reads : List ReadReq) :
    (checksumDone s reads).result = crcOf s.seed (buffer s) := rfl

theorem buffer_of_len {s : State} {n : Nat} (hn : s.len.toNat = n) : buffer s = bytesAt s s.addr n := by rw [buffer, hn]

/-- A checksum command on a buffer of `n` bytes, with the reads of `n` bytes admitted. -/
theorem exec_checksum_of_len {i : Instr} {s : State} {n : Nat} (hi : i = .crc ∨ i = .crcq) (h : TableValid s)
    (hn : s.len.toNat = n) (hr : allAdmitted s.platform (commandReads i s.addr n)) :
    exec i s = .next (checksumDone s (commandReads i s.addr n)) := by
  subst hn
  exact exec_checksum_of_admitted hi h hr

/-! ### The empty buffer -/

theorem byteWalk_of_empty {s : State} (h : s.len = 0#32) : byteWalk s = .on (startCursor s) := by
  rw [byteWalk, h]
  rfl

/-- Every phase of CRCQ has length 0 on an empty buffer (42_quad_engine.md R123). -/
theorem quadWalk_of_empty {s : State} (h : s.len = 0#32) : quadWalk s = .on (startCursor s) := by
  have hn : s.len.toNat = 0 := by rw [h]; rfl
  have hparts := alignLen_add_wordCount_add_trailLen s.addr 0
  rw [quadWalk_eq_three_loops, hn, show alignLen s.addr 0 = 0 by omega, show wordCount s.addr 0 = 0 by omega,
    show trailLen s.addr 0 = 0 by omega]
  rfl

/-- `ensure_table()` in every state: it builds where TVALID is 0 (40_table_builder.md R85). -/
theorem ensureTable_eq_ite (s : State) :
    ensureTable s = { s with table := if s.tvalid then s.table else builtTable, tvalid := true } := by
  cases s with
  | mk platform table tvalid => cases tvalid <;> rfl

/-- A command that makes no turn writes SEED back to RESULT, since the two complements cancel. -/
theorem finishChecksum_startCursor (s : State) :
    finishChecksum s (.on (startCursor s)) = { s with result := s.seed } := by
  simp only [finishChecksum_on, startCursor, complement_complement, List.append_nil]

end Sys2Proof.Machine
end

section
/-! PROOF. The statements about the byte-wise engine and what it shares with the four-byte engine (41_bytewise_engine.md R101
to R105). -/

namespace Sys2Proof.Machine

/-- Settles O10: the walk of admitted byte turns folds the buffer, and the state it leaves is `checksumDone`. -/
theorem crcCompletesWithChecksum : Obligations.CrcCompletesWithChecksum := by
  unfold Obligations.CrcCompletesWithChecksum
  exact fun s h hr => exec_crc_of_admitted h hr

/-- Settles O19: all three commands complete, none changes a byte of the buffer, and the checksum of the whole is the chained
checksum of its parts. -/
theorem commandsChain : Obligations.CommandsChain := by
  unfold Obligations.CommandsChain
  intro i j k s n1 n2 hi hj hk h hlen hr1 hr2 hr
  have hlt : n1 + n2 < 2 ^ 32 := hlen ▸ s.len.isLt
  have hn1 : (BitVec.ofNat 32 n1).toNat = n1 := by rw [BitVec.toNat_ofNat, Nat.mod_eq_of_lt (by omega)]
  have hn2 : (BitVec.ofNat 32 n2).toNat = n2 := by rw [BitVec.toNat_ofNat, Nat.mod_eq_of_lt (by omega)]
  refine ⟨_, _, _, exec_checksum_of_len hi h hn1 hr1, exec_checksum_of_len hj (fun _ => rfl) hn2 hr2,
    exec_checksum_of_len hk h hlen.symm hr, ?_⟩
  simp only [checksumDone_result]
  rw [buffer_of_len hn1, buffer_of_len hn2, buffer_of_len hlen.symm, crcOf_bytesAt_add]
  -- A byte of the buffer depends on memory and the racing stores, which are those of `s` for all three commands.
  rfl

/-- Settles O20: each command completes with `crcOf` of its SEED and its buffer, whichever engine runs it. -/
theorem resultDependsOnSeedAndBytesOnly : Obligations.ResultDependsOnSeedAndBytesOnly := by
  unfold Obligations.ResultDependsOnSeedAndBytesOnly
  intro i j s u hi hj hs hu hseed hbytes hrs hru
  refine ⟨_, _, exec_checksum_of_admitted hi hs hrs, exec_checksum_of_admitted hj hu hru, ?_, checksumDone_result ..⟩
  rw [checksumDone_result, checksumDone_result, hseed, hbytes]

/-- Settles O17: neither engine makes a turn, so after `ensure_table()` the command only writes SEED to RESULT. -/
theorem emptyBufferGivesSeed : Obligations.EmptyBufferGivesSeed := by
  unfold Obligations.EmptyBufferGivesSeed
  intro i s hi hlen
  have hempty : (ensureTable s).len = 0#32 := by rw [ensureTable_len, hlen]
  have hexec : exec i s = .next (finishChecksum (ensureTable s) (.on (startCursor (ensureTable s)))) := by
    rcases hi with rfl | rfl
    · rw [exec_crc, byteWalk_of_empty hempty]
    · rw [exec_crcq, quadWalk_of_empty hempty]
  rw [hexec, finishChecksum_startCursor, ensureTable_eq_ite]

/-- Settles O18: the fold over a sequence is the fold over its parts, and the complements between them cancel. -/
theorem checksumChains : Obligations.ChecksumChains := by
  unfold Obligations.ChecksumChains
  exact fun seed b1 b2 => (crcOf_append seed b1 b2).symm

end Sys2Proof.Machine
end

section
/-! PROOF. The parts of LEN in the phases of CRCQ, and the statements about the four-byte engine (42_quad_engine.md R120 to
R125). -/

namespace Sys2Proof.Machine

/-! ### The parts of LEN -/

/-- The single-word phase is shorter than a bulk turn (42_quad_engine.md R123). -/
theorem singleWords_le_seven (a : Word) (n : Nat) : singleWords a n ≤ 7 := by
  unfold singleWords
  omega

/-- The trailing phase is shorter than a word (42_quad_engine.md R123). -/
theorem trailLen_le_three (a : Word) (n : Nat) : trailLen a n ≤ 3 := by
  unfold trailLen
  omega

/-- LEN in the phases of R123, the words of the bulk phase and of the single-word phase apart. -/
theorem len_eq_add_phases (a : Word) (n : Nat) :
    n = alignLen a n + 32 * bulkTurns a n + 4 * singleWords a n + trailLen a n := by
  have hparts := alignLen_add_wordCount_add_trailLen a n
  rw [wordCount] at hparts
  omega

/-! ### The statements -/

/-- Settles O14: each byte of a word is divided in in turn, as the byte step does, and the fold's lanes are its bytes. -/
theorem wordFoldIsFourByteSteps : Obligations.WordFoldIsFourByteSteps := by
  unfold Obligations.WordFoldIsFourByteSteps
  exact ⟨fold32_le32, fun _ _ => rfl⟩

/-- Settles O15: each loop stops when its count is used up and not at its bound, since a turn that goes on lowers the
remaining count and a refused read ends the walk in both forms. -/
theorem quadPhaseLengths : Obligations.QuadPhaseLengths := by
  unfold Obligations.QuadPhaseLengths
  refine ⟨fun s => ?_, fun a n => ⟨len_eq_add_phases a n, singleWords_le_seven a n, trailLen_le_three a n⟩⟩
  simp only [exec_crcq, quadWalk_eq_repeatTimes, startCursor, complement, alignLen, ensureTable_seed, ensureTable_addr,
    ensureTable_len]

/-- Settles O11: the walk of admitted turns folds the buffer, a byte or four bytes at a time, and the state it leaves is
`checksumDone`. -/
theorem crcqCompletesWithChecksum : Obligations.CrcqCompletesWithChecksum := by
  unfold Obligations.CrcqCompletesWithChecksum
  exact fun s h hr => exec_crcq_of_admitted h hr

/-- Settles O12: each command leaves `checksumDone` with its own reads, and nothing else in that state depends on the
engine. -/
theorem enginesAgree : Obligations.EnginesAgree := by
  unfold Obligations.EnginesAgree
  intro s h hcrc hcrcq
  exact ⟨checksumDone s (crcReads s.addr s.len.toNat), checksumDone s (crcqReads s.addr s.len.toNat),
    exec_crc_of_admitted h hcrc, exec_crcq_of_admitted h hcrcq, rfl, rfl⟩

end Sys2Proof.Machine
end

section
/-! PROOF. The bit-reversal unit: `rev32` is the library's reversal of a word, so it is an involution and linear over xor, and
it turns the most-significant-bit-first division into the reflected one (43_bit_reversal.md R140 to R144). -/

namespace Sys2Proof.Machine

/-! ### The reversal of a word -/

theorem getLsbD_setBit (y : Word) {k : Nat} (b : Bool) {j : Nat} (hj : j < 32) :
    (setBit y k b).getLsbD j = if j = k then b else y.getLsbD j := by
  have hmask : (1#32 <<< k).getLsbD j = decide (j = k) := by
    rw [← BitVec.twoPow_eq, BitVec.getLsbD_twoPow]
    simp only [← Bool.decide_and, decide_eq_decide]
    omega
  unfold setBit
  cases b
  · rw [if_neg Bool.false_ne_true, BitVec.getLsbD_and, BitVec.getLsbD_not, hmask]
    by_cases hjk : j = k <;> simp [hj, hjk]
  · rw [if_pos rfl, BitVec.getLsbD_or, hmask]
    by_cases hjk : j = k <;> simp [hjk]

/-- `n` turns of the loop of `rev32` have moved the `n` low bits of `x` to the top (43_bit_reversal.md R140). -/
theorem getLsbD_rev32_turns (x : Word) {n : Nat} (hn : n ≤ 32) {j : Nat} (hj : j < 32) :
    ((List.range n).foldl (fun y i => setBit y (31 - i) (x.getLsbD i)) 0#32).getLsbD j =
      (decide (31 - j < n) && x.getLsbD (31 - j)) := by
  induction n with
  | zero => simp
  | succ n ih =>
    rw [List.range_succ, List.foldl_append, List.foldl_cons, List.foldl_nil, getLsbD_setBit _ _ hj, ih (by omega)]
    by_cases hjn : j = 31 - n
    · have hmoved : 31 - j = n := by omega
      rw [if_pos hjn, hmoved, decide_eq_true n.lt_succ_self, Bool.true_and]
    · have hkept : 31 - j < n + 1 ↔ 31 - j < n := by omega
      rw [if_neg hjn, decide_eq_decide.mpr hkept]

/-- Bit j of the reversal is bit 31 - j of the word (43_bit_reversal.md R140). -/
theorem getLsbD_rev32 (x : Word) {j : Nat} (hj : j < 32) : (rev32 x).getLsbD j = x.getLsbD (31 - j) := by
  rw [rev32, getLsbD_rev32_turns x (Nat.le_refl 32) hj, decide_eq_true (show 31 - j < 32 by omega), Bool.true_and]

theorem rev32_rev32 (x : Word) : rev32 (rev32 x) = x := by
  refine BitVec.eq_of_getLsbD_eq fun j hj => ?_
  rw [getLsbD_rev32 _ hj, getLsbD_rev32 _ (by omega), show 31 - (31 - j) = j by omega]

theorem rev32_xor (x y : Word) : rev32 (x ^^^ y) = rev32 x ^^^ rev32 y := by
  refine BitVec.eq_of_getLsbD_eq fun j hj => ?_
  rw [getLsbD_rev32 _ hj, BitVec.getLsbD_xor, BitVec.getLsbD_xor, getLsbD_rev32 _ hj, getLsbD_rev32 _ hj]

/-- The reversal turns a shift left into a shift right. -/
theorem rev32_shiftLeft (x : Word) (k : Nat) : rev32 (x <<< k) = rev32 x >>> k := by
  refine BitVec.eq_of_getLsbD_eq fun j hj => ?_
  rw [getLsbD_rev32 _ hj, BitVec.getLsbD_shiftLeft, BitVec.getLsbD_ushiftRight]
  by_cases hin : k + j < 32
  · rw [getLsbD_rev32 _ hin, show 31 - j - k = 31 - (k + j) by omega]
    simp [show 31 - j < 32 by omega, show ¬ 31 - j < k by omega]
  · rw [BitVec.getLsbD_of_ge (rev32 x) _ (by omega)]
    simp [show 31 - j < k by omega]

/-! ### The normal-form division -/

/-- The normal-form polynomial is the reversal of POLY (43_bit_reversal.md R143). -/
theorem rev32_normalPoly : rev32 0x04C11DB7#32 = Config.poly := by decide

/-- A bit step of the reflected division is the reversed image of a bit step of the normal-form division
(43_bit_reversal.md R144). -/
theorem rev32_normalStep (m : Word) : rev32 (normalStep m) = rdivStep (rev32 m) := by
  rw [normalStep, rdivStep, getLsbD_rev32 m (by decide), apply_ite rev32, rev32_xor, rev32_shiftLeft, rev32_normalPoly]

theorem rev32_normalStep_iterate (k : Nat) (m : Word) : rev32 (normalStep^[k] m) = rdivStep^[k] (rev32 m) :=
  (show Function.Semiconj rev32 normalStep rdivStep from rev32_normalStep).iterate_right k m

/-- The reversed byte at the top of a word is the reversal of the byte at the bottom. -/
theorem zext32_rev8_shiftLeft (n : Byte) : zext32 (rev8 n) <<< 24 = rev32 (zext32 n) := by
  refine BitVec.eq_of_getLsbD_eq fun j hj => ?_
  rw [BitVec.getLsbD_shiftLeft, zext32, rev8, BitVec.getLsbD_setWidth, BitVec.getLsbD_extractLsb']
  by_cases htop : j < 24
  · have hhigh : (zext32 n).getLsbD (31 - j) = false := by
      rw [zext32, BitVec.getLsbD_setWidth, BitVec.getLsbD_of_ge n _ (by omega), Bool.and_false]
    rw [getLsbD_rev32 _ hj, hhigh]
    simp [htop]
  · simp [hj, htop, show j - 24 < 32 by omega, show j - 24 < 8 by omega, show 24 + (j - 24) = j by omega]

theorem rev32_normalDivision_rev8 (n : Byte) : rev32 (normalDivision (rev8 n)) = rdiv8 (zext32 n) := by
  rw [normalDivision, rev32_normalStep_iterate, zext32_rev8_shiftLeft, rev32_rev32, rdiv8]

/-! ### The statements -/

/-- Settles O23: the command is one write of RESULT, and bit 31 - i of that value is bit i of OPND. -/
theorem rev32ReversesOperand : Obligations.Rev32ReversesOperand := by
  unfold Obligations.Rev32ReversesOperand
  refine fun s => ⟨afterCommand .rev32 s, exec_eq_afterCommand .rev32 s, rfl, fun i hi => ?_⟩
  calc (rev32 s.opnd).getLsbD (31 - i) = s.opnd.getLsbD (31 - (31 - i)) := getLsbD_rev32 s.opnd (by omega)
    _ = s.opnd.getLsbD i := by rw [show 31 - (31 - i) = i by omega]

/-- Settles O24: reversing the place of a bit twice gives the place back, and xor works at each place alone. -/
theorem rev32IsInvolutionAndLinear : Obligations.Rev32IsInvolutionAndLinear := by
  unfold Obligations.Rev32IsInvolutionAndLinear
  exact ⟨rev32_rev32, rev32_xor⟩

/-- Settles O9: each of the eight bit steps is the reversed image of a normal-form step, and so is the division. -/
theorem levelZeroIsReversedNormalForm : Obligations.LevelZeroIsReversedNormalForm := by
  unfold Obligations.LevelZeroIsReversedNormalForm
  intro n
  rw [builtTable_entry_zero, rev32_normalDivision_rev8]

/-- Settles O25: the first equality is the evaluation, and the second is it reversed. -/
theorem polyIsReversedNormalForm : Obligations.PolyIsReversedNormalForm := by
  unfold Obligations.PolyIsReversedNormalForm
  refine ⟨rev32_normalPoly, ?_, rfl⟩
  rw [← rev32_normalPoly, rev32_rev32]

end Sys2Proof.Machine
end

section
/-! PROOF. The statements about exceptions: no command raises anything, the one event is an illegal command word, and its bit
stays set until reset (60_exceptions.md R160, R161). -/

namespace Sys2Proof.Machine

/-! ### ILLCMD once it is set -/

/-- A write to CMD leaves ILLCMD at 1: a legal command does not clear it, a further illegal word sets it again
(60_exceptions.md R161). -/
theorem writeCmd_illcmd_of_illcmd {w : Word} {s t : State} (h : writeCmd w s = .next t) (hs : s.illcmd = true) :
    t.illcmd = true := by
  rcases writeCmd_cases h with ⟨i, rfl⟩ | ⟨-, rfl⟩
  · rw [closeWindow_illcmd, afterCommand_illcmd, hs]
  · exact raiseIllegalCommand_illcmd s

/-- Of the events only reset can clear ILLCMD (60_exceptions.md R161). -/
theorem accept_illcmd_of_illcmd {e : Input} {s t : State} (h : accept e s = .next t) (he : e ≠ .reset)
    (hs : s.illcmd = true) : t.illcmd = true := by
  rcases accept_cmd_or_keeps h he with ⟨v, -, hcmd⟩ | hkeep
  · exact writeCmd_illcmd_of_illcmd hcmd hs
  · obtain ⟨-, -, -, hsame, -⟩ := hkeep.cmd (by simp)
    exact hsame.trans hs

/-! ### The statements -/

/-- Settles O29: the write reaches CMD, where the word decodes as illegal, and no event but reset clears the bit. -/
theorem illegalWordSetsStickyBit : Obligations.IllegalWordSetsStickyBit := by
  unfold Obligations.IllegalWordSetsStickyBit
  constructor
  · intro s w rest hs hp hw
    rw [step_write_reg hs .cmd hp, writeReg, writeCmd_of_illegalCommand (decode_eq_illegalCommand_iff.mpr hw),
      raiseIllegalCommand]
  · intro s t hs hne ht
    rcases step_cases ht with ⟨-, rfl⟩ | ⟨e, rest, hp, ht⟩
    · exact hs
    · have he : e ≠ .reset := fun he => hne rest (he ▸ hp)
      exact accept_illcmd_of_illcmd ht he hs

/-- Settles O26: every command answers `afterCommand`, refused reads included, and ILLCMD is in its frame. -/
theorem commandsRaiseNothing : Obligations.CommandsRaiseNothing := by
  unfold Obligations.CommandsRaiseNothing
  exact fun i s => ⟨afterCommand i s, exec_eq_afterCommand i s, afterCommand_illcmd i s⟩

end Sys2Proof.Machine
end

section
/-! PROOF. How a command ends: after the reads of its plan, or stuck for good. What an event can do behind a stuck command, and
the records of what never completes, which no event shortens (20_memory.md R48, 70_reset_and_hazards.md R180, R189, R190). -/

namespace Sys2Proof.Machine

/-! ### How many reads a command makes -/

theorem length_crcReads (a : Word) (n : Nat) : (crcReads a n).length = n := by simp [crcReads]

/-- CRCQ makes the reads of its four phases (42_quad_engine.md R124). -/
theorem length_crcqReads (a : Word) (n : Nat) :
    (crcqReads a n).length = alignLen a n + 8 * bulkTurns a n + singleWords a n + trailLen a n := by
  simp [crcqReads, wordCount, Nat.add_assoc]

/-- A command whose reads are all admitted does not get stuck, so it records nothing as unfinished. -/
theorem afterCommand_stuck_unfinished_of_admitted {i : Instr} {s : State}
    (h : allAdmitted s.platform (commandReads i s.addr s.len.toNat)) :
    (afterCommand i s).stuck = s.stuck ∧ (afterCommand i s).unfinished = s.unfinished := by
  rcases afterCommand_reads i s with ⟨-, -, hkept⟩ | ⟨before, q, after, hplan, -, hq, -⟩
  · exact hkept
  · have : memAdmits s.platform q = true := h q (by simp [hplan])
    simp [hq] at this

/-! ### Events behind a stuck command -/

/-- Behind a stuck command an event that is no reset reaches memory, the stores racing on it and the held accesses only
(20_memory.md R48). -/
theorem accept_of_stuck_of_ne_reset {e : Input} {s t : State} (h : accept e s = .next t) (hs : s.stuck ≠ none)
    (he : e ≠ .reset) : ∃ mem racing held, t = { s with mem := mem, racing := racing, held := held } := by
  rcases accept_cases h with
    ⟨-, rfl⟩ | ⟨_, _, -, hnone, -⟩ | ⟨_, _, -, hnone, -⟩ | ⟨rfl, -⟩ | ⟨_, _, -, rfl⟩ | ⟨_, _, -, rfl⟩
  · exact ⟨_, _, _, rfl⟩
  · exact absurd hnone hs
  · exact absurd hnone hs
  · exact absurd rfl he
  · exact ⟨_, _, _, rfl⟩
  · exact ⟨_, _, _, rfl⟩

/-! ### The records of what never completes -/

/-- From `s` to `t` no unfinished command and no held access is forgotten (70_reset_and_hazards.md R189; log entries 5 and 7). -/
def KeepsRecords (s t : State) : Prop := s.unfinished <+: t.unfinished ∧ s.held <+: t.held

theorem keepsRecords_of_eq {s t : State} (hunf : t.unfinished = s.unfinished) (hheld : t.held = s.held) :
    KeepsRecords s t :=
  ⟨hunf ▸ List.prefix_rfl, hheld ▸ List.prefix_rfl⟩

/-- A command adds to the unfinished commands itself, if it gets stuck. -/
theorem unfinished_prefix_afterCommand (i : Instr) (s : State) : s.unfinished <+: (afterCommand i s).unfinished := by
  rcases afterCommand_reads i s with ⟨-, -, -, hunf⟩ | ⟨_, q, _, -, -, -, -, -, hunf⟩
  · exact hunf ▸ List.prefix_rfl
  · exact hunf ▸ List.prefix_append _ _

theorem writeTarget_keepsRecords {g : Target} {v : Word} {s t : State} (h : writeTarget g v s = .next t) :
    KeepsRecords s t := by
  cases g with
  | refused why => cases h
  | reserved => cases h; exact keepsRecords_of_eq rfl rfl
  | reg r =>
    cases r with
    | cmd =>
      rcases writeCmd_cases h with ⟨i, rfl⟩ | ⟨-, rfl⟩
      · exact ⟨unfinished_prefix_afterCommand i s, (afterCommand_held i s).symm ▸ List.prefix_rfl⟩
      · exact keepsRecords_of_eq rfl rfl
    | seed | addr | len | tsel | opnd | status | result | poly => cases h; exact keepsRecords_of_eq rfl rfl

/-- No event takes anything out of the records, not even reset. -/
theorem accept_keepsRecords {e : Input} {s t : State} (h : accept e s = .next t) : KeepsRecords s t := by
  rcases accept_cases h with
    ⟨-, rfl⟩ | ⟨_, _, -, -, hw⟩ | ⟨_, _, -, -, rfl⟩ | ⟨-, rfl⟩ | ⟨_, _, -, rfl⟩ | ⟨_, _, -, rfl⟩
  · exact ⟨List.prefix_rfl, List.prefix_append _ _⟩
  · exact writeTarget_keepsRecords hw
  all_goals exact keepsRecords_of_eq rfl rfl

theorem step_keepsRecords {s t : State} (h : step s = .next t) : KeepsRecords s t := by
  rcases step_cases h with ⟨-, rfl⟩ | ⟨e, rest, -, ht⟩
  · exact keepsRecords_of_eq rfl rfl
  · exact accept_keepsRecords (s := { s with pending := rest }) ht

theorem KeepsRecords.ne_nil {s t : State} (h : KeepsRecords s t) (hs : s.unfinished ≠ [] ∨ s.held ≠ []) :
    t.unfinished ≠ [] ∨ t.held ≠ [] := by
  obtain ⟨hunf, hheld⟩ := h
  exact hs.imp hunf.ne_nil hheld.ne_nil

/-- A run with an unfinished command or a held access has not ended (70_reset_and_hazards.md R189). -/
theorem not_runEnded_of_records {s : State} (h : s.unfinished ≠ [] ∨ s.held ≠ []) : ¬ runEnded s := by
  rintro ⟨-, hheld, hunf, -⟩
  exact h.elim (absurd hunf) (absurd hheld)

/-- A command that gets stuck is recorded as unfinished. -/
theorem unfinished_ne_nil_of_writeCmd_stuck {w : Word} {s t : State} (h : writeCmd w s = .next t) (hs : s.stuck = none)
    (ht : t.stuck ≠ none) : t.unfinished ≠ [] := by
  rcases writeCmd_cases h with ⟨i, rfl⟩ | ⟨-, rfl⟩
  · rcases afterCommand_reads i s with ⟨-, -, hstuck, -⟩ | ⟨_, q, _, -, -, -, -, -, hunf⟩
    · exact absurd (hstuck.trans hs) ht
    · simp [hunf]
  · exact absurd hs ht

/-- Only a command gets stuck, so an event that leaves one stuck records it as unfinished. -/
theorem unfinished_ne_nil_of_accept_stuck {e : Input} {s t : State} (h : accept e s = .next t) (hs : s.stuck = none)
    (ht : t.stuck ≠ none) : t.unfinished ≠ [] := by
  by_cases he : e = .reset
  · subst he
    cases h
    exact absurd rfl ht
  · rcases accept_cmd_or_keeps h he with ⟨v, -, hcmd⟩ | hkeep
    · exact unfinished_ne_nil_of_writeCmd_stuck hcmd hs ht
    · obtain ⟨-, -, -, -, hstuck, -⟩ := hkeep.cmd (by simp)
      exact absurd (hstuck.trans hs) ht

end Sys2Proof.Machine
end

section
/-! PROOF. The statements about reset, hazards and the end of a run (70_reset_and_hazards.md R180, R189, R190). -/

namespace Sys2Proof.Machine

/-- Settles O22: a command whose reads are admitted makes all the reads of `commandReads`, which are so many. -/
theorem admittedCommandsComplete : Obligations.AdmittedCommandsComplete := by
  unfold Obligations.AdmittedCommandsComplete
  intro i s hs hr
  obtain ⟨hstuck, hunf⟩ := afterCommand_stuck_unfinished_of_admitted hr
  refine ⟨afterCommand i s, exec_eq_afterCommand i s, hstuck.trans hs, hunf, ?_⟩
  rw [afterCommand_readLog_of_admitted hr, List.length_append]
  congr 1
  cases i with
  | build | rdtab | rev32 => rfl
  | crc => exact length_crcReads s.addr s.len.toNat
  | crcq => exact length_crcqReads s.addr s.len.toNat

/-- Settles O39: what such an event reaches lies outside the block. -/
theorem onlyResetLiftsStuckCommand : Obligations.OnlyResetLiftsStuckCommand := by
  unfold Obligations.OnlyResetLiftsStuckCommand
  intro s t q hq hne ht
  rcases step_cases ht with ⟨-, rfl⟩ | ⟨e, rest, hp, ht⟩
  · exact ⟨hq, rfl, rfl, rfl, rfl, rfl, rfl, rfl, rfl, rfl, rfl, rfl, rfl⟩
  · have he : e ≠ .reset := fun he => hne rest (he ▸ hp)
    obtain ⟨mem, racing, held, rfl⟩ := accept_of_stuck_of_ne_reset ht (by simp [hq]) he
    exact ⟨hq, rfl, rfl, rfl, rfl, rfl, rfl, rfl, rfl, rfl, rfl, rfl, rfl⟩

/-- Settles O49: only a command that is recorded gets stuck, and the records only grow. -/
theorem stuckRunNeverEnds : Obligations.StuckRunNeverEnds := by
  unfold Obligations.StuckRunNeverEnds
  constructor
  · intro s t hs ht hstuck
    have hunf : t.unfinished ≠ [] := by
      rcases step_cases ht with ⟨-, rfl⟩ | ⟨e, rest, -, ht⟩
      · exact absurd hs hstuck
      · exact unfinished_ne_nil_of_accept_stuck (s := { s with pending := rest }) ht hs hstuck
    exact ⟨hunf, not_runEnded_of_records (.inl hunf)⟩
  · intro s t hs ht
    have hrecords := (step_keepsRecords ht).ne_nil hs
    exact ⟨hrecords, not_runEnded_of_records hrecords⟩

/-- Settles O46: the event is `resetBlock`, whose fields these are. -/
theorem resetEventResetsTheBlock : Obligations.ResetEventResetsTheBlock := by
  unfold Obligations.ResetEventResetsTheBlock
  intro s rest hp
  exact ⟨resetBlock { s with pending := rest }, step_of_pending hp, by simp⟩

end Sys2Proof.Machine
end
